-- ==== Sys2Proof/Word.lean ====
section
/-! DEFINITION. The word types of the P10 row-scan core: bytes and 64-bit port words (`00_scope.md` R14). -/

namespace Sys2Proof

/-- `u8`: one framebuffer or cache byte (R14, R16). -/
abbrev Byte := BitVec 8

/-- `u64`: a command, response or configuration word (R71, R79, R82). -/
abbrev Word64 := BitVec 64

end Sys2Proof
end

