-- ==== Sys2Proof/Syntax.lean ====
section
/-! DEFINITION. The commands of P10RS-CMD version 1: one constructor per row of spec/opcode_table.json
(`30_encoding.md` R76). -/

namespace Sys2Proof

/-- A command of the host. -/
inductive Instr where
  /-- `SETPX x, y, on` (R106): `x` and `y` are the integers R74 assembles; `on = true` is lit. -/
  | setpx (x y : Int) (on : Bool)
  /-- `SCAN` (R136): one scan pass. -/
  | scan
  /-- `FLUSH` (R147): four scan passes. -/
  | flush
  /-- `QDIM` (R112): the display dimensions. -/
  | qdim
  deriving DecidableEq, Repr

end Sys2Proof
end

