-- ==== Sys2Proof/WellFormed.lean ====
section
/-! DEFINITION. Which commands have a command word: the coordinates of `SETPX` are 16-bit two's complement
(`30_encoding.md` R73, R83). -/

namespace Sys2Proof

/-- An integer that a 16-bit two's complement coordinate field can hold (R74). -/
abbrev Coord16 (z : Int) : Prop := -32768 ≤ z ∧ z ≤ 32767

/-- A command that has an encoding. -/
abbrev Instr.WellFormed : Instr → Prop
  | .setpx x y _ => Coord16 x ∧ Coord16 y
  | .scan => True
  | .flush => True
  | .qdim => True

/-- The same check as a Bool, for the assembler. -/
def Instr.wellFormed : Instr → Bool
  | .setpx x y _ => decide (Coord16 x) && decide (Coord16 y)
  | .scan => true
  | .flush => true
  | .qdim => true

end Sys2Proof
end

