-- ==== Sys2Proof/Decode.lean ====
section
/-! DEFINITION. The command decoder (`30_encoding.md` R71-R78, R86), total on 64-bit words and rejecting by name, and
the encoder written from the same formats (R73, R75, R83). -/

namespace Sys2Proof

/-- `OP = CMD[63:60]` (R72). -/
def opField (w : Word64) : BitVec 4 := w.extractLsb' 60 4

/-- The reserved bits `CMD[59:33]` of format P (R73). -/
def reservedField (w : Word64) : BitVec 27 := w.extractLsb' 33 27

/-- `ON = CMD[32]` (R73). -/
def onField (w : Word64) : Bool := w.getLsbD 32

/-- `Y = CMD[31:16]` (R73). -/
def yField (w : Word64) : BitVec 16 := w.extractLsb' 16 16

/-- `X = CMD[15:0]` (R73). -/
def xField (w : Word64) : BitVec 16 := w.extractLsb' 0 16

/-- The bits `CMD[59:0]` that must be zero in format Z (R75). -/
def zeroField (w : Word64) : BitVec 60 := w.extractLsb' 0 60

/-- `sext_16` (R15): the 16-bit value read as two's complement. -/
def sext16 (v : BitVec 16) : Int := v.toInt

/-- Why a word is `ILLEGAL` (R77). The block answers all three alike. -/
inductive IllegalCause where
  /-- `OP` is 0x0 or in 0x5 to 0xF. -/
  | reservedOp (op : BitVec 4)
  /-- `OP = 0x1` with a nonzero reserved bit. -/
  | reservedBits
  /-- `OP` is 0x2, 0x3 or 0x4 with a nonzero operand bit. -/
  | operandBits (op : BitVec 4)
  deriving DecidableEq, Repr

/-- What a command word decodes to (R71): one command, or `ILLEGAL`. -/
inductive Decoded where
  | command (i : Instr)
  | illegal (why : IllegalCause)
  deriving DecidableEq, Repr

/-- A format Z word: the command if its operand bits are zero (R75). -/
def decodeZ (i : Instr) (w : Word64) : Decoded :=
  if zeroField w = 0 then .command i else .illegal (.operandBits (opField w))

/-- A format P word (R73, R74). -/
def decodeP (w : Word64) : Decoded :=
  if reservedField w = 0 then .command (.setpx (sext16 (xField w)) (sext16 (yField w)) (onField w))
  else .illegal .reservedBits

/-- `decode(CMD)` (R86): every 64-bit word is exactly one command or `ILLEGAL`. -/
def decode (w : Word64) : Decoded :=
  if opField w = 0x1#4 then decodeP w
  else if opField w = 0x2#4 then decodeZ .scan w
  else if opField w = 0x3#4 then decodeZ .flush w
  else if opField w = 0x4#4 then decodeZ .qdim w
  else .illegal (.reservedOp (opField w))

/-- The command of a decoded word, if it is one. -/
def Decoded.command? : Decoded → Option Instr
  | .command i => some i
  | .illegal _ => none

/-- The word of a `SETPX`: `{0x1, 27'b0, on, y[15:0], x[15:0]}` (R83). -/
def encodeP (x y : Int) (on : Bool) : Word64 :=
  0x1#4 ++ 0#27 ++ BitVec.ofBool on ++ BitVec.ofInt 16 y ++ BitVec.ofInt 16 x

/-- The command word of a well-formed command (R83). -/
def encode : Instr → Word64
  | .setpx x y on => encodeP x y on
  | .scan => 0x2000000000000000#64
  | .flush => 0x3000000000000000#64
  | .qdim => 0x4000000000000000#64

/-- The 64-bit command word of `nbits` table bits: the bits above `nbits` are zero. A command word is a port value
(R44), so its bits are numbered as the table numbers them. -/
def tableWord (nbits w : Nat) : Word64 := BitVec.ofNat 64 (w % 2 ^ nbits)

/-- The command the decoder reads from a word of the opcode table. -/
def decodeTableWord (nbits w : Nat) : Option Instr := (decode (tableWord nbits w)).command?

end Sys2Proof
end

