-- ==== Sys2Proof/Config.lean ====
section
/-! DEFINITION. The configuration parameters of the block (`00_scope.md` section 3, `10_state.md` R26) and the open
durations no rule reads (`92_eei_decisions.md` D19). -/

namespace Sys2Proof

/-- `ORDER`: the row-group byte order of the scan cache (R8). -/
inductive RowOrder where
  | asc
  | desc
  deriving DecidableEq, Repr

/-- `STRATEGY`: the brightness strategy (R9). -/
inductive Strategy where
  | duty
  | enable
  deriving DecidableEq, Repr

/-- `PROFILE`: the order of steps in a scan pass (R11). -/
inductive Profile where
  | standard
  | transmitFirst
  deriving DecidableEq, Repr

/-- `MODE`: the execution mode of the transmit step (R12). -/
inductive ExecMode where
  | blocking
  | suspendable
  deriving DecidableEq, Repr

/-- `CFG`: the configuration registers, sampled at reset and constant afterwards (R26). -/
structure Cfg where
  /-- `PX`, panels across. -/
  px : BitVec 10
  /-- `PY`, panels down. -/
  py : BitVec 11
  order : RowOrder
  strategy : Strategy
  profile : Profile
  mode : ExecMode
  /-- `B0`, the initial brightness level (R10). -/
  b0 : BitVec 16
  deriving DecidableEq, Repr

/-! The open parameters of D19 (R207, R217; log entry 16): no rule of the spec reads them and no definition of the model
does. Each has no body, so nothing can be proved of its value. -/

/-- `T_REFRESH`: the host's refresh period (R207). -/
opaque Config.tRefresh : Nat
/-- `T_LAT_HIGH`: the high time of the latch pulse (R217). -/
opaque Config.tLatHigh : Nat
/-- `T_BLANK`: the time between `BLANK()` and `UNBLANK()` (R217). -/
opaque Config.tBlank : Nat
/-- `T_ADDR_SETUP`: the setup time of `A` and `B` before unblank (R217). -/
opaque Config.tAddrSetup : Nat
/-- `BUS_RATE`: the bus bit rate (R217). -/
opaque Config.busRate : Nat

end Sys2Proof
end

