-- ==== Sys2Proof/Machine/State.lean ====
section
/-! DEFINITION. The state of the block (`10_state.md` R21), the requests and answers of its ports (`20_memory.md` R51,
R52), the reasons a step can stop, and the state after reset. -/

namespace Sys2Proof.Machine

/-- A digital line (R51): the latch line, the two row-address lines, the enable line. -/
inductive Line where
  | lat
  | a
  | b
  | en
  deriving DecidableEq, Repr

/-- A line level (R51). -/
inductive Level where
  | low
  | high
  deriving DecidableEq, Repr

/-- An outbound request (R51). -/
inductive Request where
  /-- `BUS(d)`: write the byte sequence over the serial bus. -/
  | bus (d : List Byte)
  /-- `LINE(l, v)`: drive a line to a level. -/
  | line (l : Line) (v : Level)
  /-- `DUTY(v)`: set the actuator's duty value. -/
  | duty (v : BitVec 16)
  deriving DecidableEq, Repr

/-- A collaborator's answer to a request (R52). -/
inductive Answer where
  | ok
  | fail
  deriving DecidableEq, Repr

/-- What the host does to the block (R4, R201): it presents a command word, or it resets the block with a
configuration word on the configuration input. -/
inductive HostInput where
  | command (w : Word64)
  | reset (cfgWord : Word64)
  deriving DecidableEq, Repr

/-- A step label within a pass (R30, R137, R144); `s2a` is the spec's label `2a`, and so on. -/
inductive Label where
  | s1
  | s2a
  | s2b
  | s3a
  | s3b
  | s4a
  | s4b
  | s5
  | s6
  deriving DecidableEq, Repr

/-- `POS = (k, j)` (R30): the pass index and the step label. -/
structure Pos where
  k : Fin 4
  j : Label
  deriving DecidableEq, Repr

/-- Which sequencer command is running (log entry 8). -/
inductive SeqCmd where
  | scan
  | flush
  deriving DecidableEq, Repr

/-- A running `SCAN` or `FLUSH` and its position. -/
structure Job where
  cmd : SeqCmd
  pos : Pos
  deriving DecidableEq, Repr

/-- `LIFE` (R29). `POS` has a meaning only while `LIFE = BUSY` (R30), so it stands inside that value. -/
inductive Life where
  /-- `READY`: the block accepts a command. -/
  | ready
  /-- `BUSY`: a `SCAN` or `FLUSH` waits at `job.pos` for the answer to its request. -/
  | busy (job : Job)
  /-- `DEAD`: construction failed. -/
  | dead
  /-- Model's own value (log entry 8): a reset has issued `DUTY(B0)` and the answer has not arrived; R201 sets `LIFE`
  only after it. -/
  | resetting
  deriving DecidableEq, Repr

/-- The framebuffer's cells that differ from the reset byte, by rising address (log entry 14). -/
abbrev Memory := List Host.Cell

/-- Why the block stops. No state that the invariant `Inv` admits raises one. -/
inductive Fault where
  /-- Raised by `SETPX` if `MAP` were asked for a coordinate outside its domain (R98, U1). Safe: R107's bounds check
  comes first, so no run raises it. -/
  | mapOutsideDomain
  /-- Raised by an access to an address outside FB space (R41). Safe: no rule reaches one (R100, R121). -/
  | fbOutside
  /-- Raised by `UNBLANK` under `STRATEGY = DUTY` if `BRIGHT` were absent (R25). Safe: reset makes it present. -/
  | brightAbsent
  deriving DecidableEq, Repr

/-- Why the block does not take a command. -/
inductive Refusal where
  /-- An instruction without a meaning in `exec`. Safe. No arm of this model raises it. -/
  | notModelled (mnemonic : String)
  /-- Raised by every command presented while `LIFE = BUSY` (R212, U16: outside the spec, no move). Safe. -/
  | commandWhileBusy
  /-- Raised by every command presented to a `DEAD` block (R185, U17: "a model refuses it"). Safe. -/
  | commandToDead
  /-- Raised by every command presented before the construction response (R207, R212). Safe. -/
  | commandDuringReset
  deriving DecidableEq, Repr

/-- The state of the block and of its ports. The first six fields are the spec's state (R21), with `POS` inside `life`;
`fbCapBytes` is the open parameter `FB_CAP_BYTES` (R7); the last four are the model's own record of the ports. -/
structure State where
  /-- `CFG` (R26). -/
  cfg : Cfg
  /-- `PHASE` (R24). -/
  phase : BitVec 2
  /-- `BRIGHT` (R25): present only with `STRATEGY = DUTY`. -/
  bright : Option (BitVec 16)
  /-- `FB` (R27): an address that no cell lists holds the reset byte 0xFF. -/
  fb : Memory
  /-- `CACHE` (R28): `CACHE[0]` first. -/
  cache : List Byte
  /-- `LIFE` (R29) with `POS` (R30). -/
  life : Life
  /-- `FB_CAP_BYTES` (R7): nothing writes it. -/
  fbCapBytes : Nat
  /-- What the host will do, in its order (R23; log entry 5). -/
  inputs : List HostInput
  /-- The answers that have arrived and are not consumed, oldest first (R52; log entry 4). -/
  answers : List Answer
  /-- The trace (R54), oldest first. -/
  trace : List (Request × Answer)
  /-- The response words (R54, R79), oldest first. -/
  responses : List Word64
  deriving DecidableEq, Repr

/-- The block after a reset with the configuration word of R82's example, `0x0000800000000401`, whose construction
request `DUTY(0x8000)` was answered `OK` (R203, R204). The configuration word is a DESIGN CHOICE (log entry 1): the
spec leaves it to the host. The cache's bytes are one too (log entry 2), and so is `FB_CAP_BYTES` (log entry 3). -/
def State.reset : State where
  cfg := { px := 1, py := 1, order := .asc, strategy := .duty, profile := .standard, mode := .blocking, b0 := 0x8000 }
  phase := 0
  bright := some 0x8000
  fb := []
  cache := List.replicate 16 0
  life := .ready
  fbCapBytes := 64 * 1023 * 2047
  inputs := []
  answers := []
  trace := [(.duty 0x8000, .ok)]
  responses := [0x0000000000000000#64]

end Sys2Proof.Machine
end

