-- ==== Sys2Proof/Machine/Flags.lean ====
section
/-! DEFINITION. The block has no flags (`10_state.md` R32); its only status is the `STATUS` field of the response word.
This file holds the status codes (`30_encoding.md` R80), the response words (R79, R81) and the error each failed
request raises (`60_exceptions.md` R177). -/

namespace Sys2Proof.Machine

/-- A status of a response word (R80). -/
inductive Status where
  | ok
  | busError
  | brightnessError
  | pinError
  | configError
  | illegalCommand
  deriving DecidableEq, Repr

/-- The 4-bit code of a status (R80). -/
def statusCode : Status → BitVec 4
  | .ok => 0x0#4
  | .busError => 0x1#4
  | .brightnessError => 0x2#4
  | .pinError => 0x3#4
  | .configError => 0x4#4
  | .illegalCommand => 0xF#4

/-- `{STATUS, 60'b0}` (R81). -/
def statusWord (e : Status) : Word64 := statusCode e ++ 0#60

/-- `{0x0, 28'b0, zext_16(HEIGHT), zext_16(WIDTH)}` (R81). -/
def dimensionWord (height width : Nat) : Word64 :=
  statusCode .ok ++ 0#28 ++ BitVec.ofNat 16 height ++ BitVec.ofNat 16 width

/-- The error that a request answered `FAIL` raises (R177). -/
def errorOf : Request → Status
  | .bus _ => .busError
  | .duty _ => .brightnessError
  | .line _ _ => .pinError

end Sys2Proof.Machine
end

