-- ==== Sys2Proof/Machine/Geometry.lean ====
section
/-! DEFINITION. The derived quantities of the configuration (`00_scope.md` R13). -/

namespace Sys2Proof.Machine

/-- `WIDTH = PX * 32`. -/
def displayWidth (c : Cfg) : Nat := c.px.toNat * 32

/-- `HEIGHT = PY * 16`. -/
def displayHeight (c : Cfg) : Nat := c.py.toNat * 16

/-- `NP = PX * PY`. -/
def panelCount (c : Cfg) : Nat := c.px.toNat * c.py.toNat

/-- `RS = 4 * PX * PY`, the unified row stride in bytes. -/
def rowStride (c : Cfg) : Nat := 4 * panelCount c

/-- `FB_BYTES = 16 * RS`. -/
def fbBytes (c : Cfg) : Nat := 16 * rowStride c

/-- `CACHE_BYTES = 4 * RS` (C1). -/
def cacheBytes (c : Cfg) : Nat := 4 * rowStride c

end Sys2Proof.Machine
end

