-- ==== Sys2Proof/Machine/Ops.lean ====
section
/-! DEFINITION. The named operations over the state: framebuffer memory (`00_scope.md` R16), requests and answers (R17,
`20_memory.md` R53), responses (`30_encoding.md` R79), and the entry of an error (`60_exceptions.md` R179). An error has
no return operation: there is no return command, the block is `READY` after the error response (R183). -/

namespace Sys2Proof.Machine

/-! ### Field updates -/

def State.withPhase (s : State) (p : BitVec 2) : State := { s with phase := p }
def State.withFb (s : State) (m : Memory) : State := { s with fb := m }
def State.withCache (s : State) (d : List Byte) : State := { s with cache := d }
def State.withLife (s : State) (l : Life) : State := { s with life := l }
def State.withInputs (s : State) (is : List HostInput) : State := { s with inputs := is }
def State.withAnswers (s : State) (as : List Answer) : State := { s with answers := as }
/-- One more entry of the trace (R54). -/
def State.traced (s : State) (r : Request) (a : Answer) : State := { s with trace := s.trace ++ [(r, a)] }
/-- One more response word (R54). -/
def State.responded (s : State) (w : Word64) : State := { s with responses := s.responses ++ [w] }

/-! ### Framebuffer memory -/

/-- What every FB byte holds after reset, all dark (R27); an unlisted address reads it. -/
def darkByte : Byte := 0xFF#8

/-- The byte at an address. -/
def Memory.read : Memory → Nat → Byte
  | [], _ => darkByte
  | (b, u) :: m, a => if a = b then u else Memory.read m a

/-- The cell of a byte, if it must be listed. -/
def cellOf (a : Nat) (v : Byte) : Memory := if v = darkByte then [] else [(a, v)]

/-- Store a byte, keeping the canonical form. -/
def Memory.write : Memory → Nat → Byte → Memory
  | [], a, v => cellOf a v
  | (b, u) :: m, a, v =>
    if a < b then cellOf a v ++ (b, u) :: m
    else if a = b then cellOf a v ++ m
    else (b, u) :: Memory.write m a v

/-- The canonical form: addresses strictly rise, and no cell lists the byte an unlisted address reads as. -/
abbrev Memory.wf (m : Memory) : Prop :=
  m.Pairwise (fun c d => c.1 < d.1) ∧ ∀ c ∈ m, c.2 ≠ darkByte

/-- `MemRead(a, 1)` (R16): no value outside FB space (R41). -/
def memRead (s : State) (a : Nat) : Option Byte :=
  if a < fbBytes s.cfg then some (Memory.read s.fb a) else none

/-- `MemWrite(a, 1, v)` (R16): no state outside FB space (R41). -/
def memWrite (s : State) (a : Nat) (v : Byte) : Option State :=
  if a < fbBytes s.cfg then some (s.withFb (Memory.write s.fb a v)) else none

/-! ### Responses -/

/-- Return response word `w`: the command is over and `LIFE` is `READY` again (R18, R29, R60). -/
def respond (w : Word64) (s : State) : State := (s.responded w).withLife .ready

/-- `respond {0x0, 60'b0}`. -/
def respondOk (s : State) : State := respond (statusWord .ok) s

/-- Error entry (R18, R177, R179), the counterpart of taking an exception: the command ends with the status of the
failed request; nothing is saved and nothing already written is undone. -/
def raiseError (r : Request) (s : State) : State := respond (statusWord (errorOf r)) s

/-! ### Requests -/

/-- What became of a request (R17, R52, R53). -/
inductive Emitted where
  /-- No answer has arrived: the request is in flight. -/
  | waiting
  | ok (s : State)
  | failed (s : State)

/-- `Emit(r)` (R17): issue `r` and take the oldest arrived answer as its answer (R52, R53). -/
def emit (r : Request) (s : State) : Emitted :=
  match s.answers with
  | [] => .waiting
  | .ok :: rest => .ok ((s.traced r .ok).withAnswers rest)
  | .fail :: rest => .failed ((s.traced r .fail).withAnswers rest)

/-! ### The command port -/

/-- A command runs only while `LIFE = READY` (R29, R71, R212); otherwise it is refused by name. -/
def whenReady (s : State) (run : State → Host.Outcome State Fault Refusal) : Host.Outcome State Fault Refusal :=
  match s.life with
  | .ready => run s
  | .busy _ => .refused .commandWhileBusy
  | .dead => .refused .commandToDead
  | .resetting => .refused .commandDuringReset

/-! ### The environment -/

/-- More answers arrive from the collaborators (R52). -/
def State.offer (s : State) (more : List Answer) : State := s.withAnswers (s.answers ++ more)

end Sys2Proof.Machine
end

