-- ==== Sys2Proof/Machine/Operands.lean ====
section
/-! DEFINITION. The operands of `SETPX`: the bounds check (`41_framebuffer.md` R107) and the pixel-to-bitmap address
mapper (`40_pixel_addressing.md` R91-R102). -/

namespace Sys2Proof.Machine

/-- In bounds (R107): `0 <= x < WIDTH` and `0 <= y < HEIGHT`. -/
abbrev InBounds (c : Cfg) (x y : Int) : Prop :=
  (0 ≤ x ∧ x < displayWidth c) ∧ (0 ≤ y ∧ y < displayHeight c)

/-- The panel index `p` (R92). -/
def panelIndex (c : Cfg) (x y : Nat) : Nat := x / 32 + c.px.toNat * (y / 16)

/-- The chain x `x'` (R93). -/
def chainX (c : Cfg) (x y : Nat) : Nat := x % 32 + panelIndex c x y * 32

/-- The panel row `y'` (R94). -/
def panelRow (y : Nat) : Nat := y % 16

/-- The byte address `a` (R95). -/
def byteAddr (c : Cfg) (x y : Nat) : Nat := chainX c x y / 8 + panelRow y * rowStride c

/-- The bit position `b` (R96), bit 0 the least significant (C3). -/
def bitPos (c : Cfg) (x y : Nat) : Nat := 7 - chainX c x y % 8

/-- The one-hot mask of a bit position (R96). -/
def bitMask (b : Nat) : Byte := 1#8 <<< b

/-- `MAP(x, y)` (R91); none outside its domain (R98). -/
def mapPixel (c : Cfg) (x y : Int) : Option (Nat × Byte) :=
  if InBounds c x y then some (byteAddr c x.toNat y.toNat, bitMask (bitPos c x.toNat y.toNat)) else none

/-- The coordinate that `MAP` sends to byte `a`, bit `b` (R101). -/
def unmapPixel (c : Cfg) (a b : Nat) : Nat × Nat :=
  let y' := a / rowStride c
  let x' := 8 * (a % rowStride c) + (7 - b)
  let p := x' / 32
  (32 * (p % c.px.toNat) + x' % 32, 16 * (p / c.px.toNat) + y')

/-- The byte with the pixel of mask `m` lit (bit cleared) or dark (bit set) (R106, R108). -/
def pixelByte (on : Bool) (m v : Byte) : Byte := if on then v &&& ~~~m else v ||| m

end Sys2Proof.Machine
end

