-- ==== Sys2Proof/Machine/Framebuffer.lean ====
section
/-! DEFINITION. The meanings of `SETPX` and `QDIM` (`41_framebuffer.md`). -/

namespace Sys2Proof.Machine

/-- The read-modify-write of R106 at `MAP(x, y)`. -/
def setPixelAt (a : Nat) (m : Byte) (on : Bool) (s : State) : Host.Outcome State Fault Refusal :=
  match memRead s a with
  | none => .fault .fbOutside
  | some v =>
    match memWrite s a (pixelByte on m v) with
    | none => .fault .fbOutside
    | some t => .next (respondOk t)

/-- The pseudocode of `SETPX` (R106), with the bounds check of R107. -/
def setPixel (x y : Int) (on : Bool) (s : State) : Host.Outcome State Fault Refusal :=
  if InBounds s.cfg x y then
    match mapPixel s.cfg x y with
    | none => .fault .mapOutsideDomain
    | some (a, m) => setPixelAt a m on s
  else .next (respondOk s)

/-- `SETPX x, y, on` (R106). -/
def execSetpx (x y : Int) (on : Bool) (s : State) : Host.Outcome State Fault Refusal :=
  whenReady s (setPixel x y on)

/-- `QDIM` (R112). -/
def execQdim (s : State) : Host.Outcome State Fault Refusal :=
  whenReady s fun s => .next (respond (dimensionWord (displayHeight s.cfg) (displayWidth s.cfg)) s)

end Sys2Proof.Machine
end

