-- ==== Sys2Proof/Machine/Brightness.lean ====
section
/-! DEFINITION. The requests of the brightness controller, `BLANK()` and `UNBLANK()` (`44_brightness.md` R166). -/

namespace Sys2Proof.Machine

/-- The request of `BLANK()` (R166): `DUTY(0)` (R167, D13) or `LINE(EN, LOW)` (R168). -/
def blankRequest (s : State) : Request :=
  match s.cfg.strategy with
  | .duty => .duty 0
  | .enable => .line .en .low

/-- The request of `UNBLANK()` (R166): `DUTY(BRIGHT)` (R167) or `LINE(EN, HIGH)` (R168); none if `BRIGHT` is absent
under `DUTY` (R25). -/
def unblankRequest (s : State) : Option Request :=
  match s.cfg.strategy with
  | .duty => s.bright.map Request.duty
  | .enable => some (.line .en .high)

end Sys2Proof.Machine
end

