-- ==== Sys2Proof/Machine/ScanCache.lean ====
section
/-! DEFINITION. The scan cache builder `BUILD` (`42_scan_cache.md` R121). -/

namespace Sys2Proof.Machine

/-- `rowsel(s, k)` (R121, R122). -/
def rowSel (o : RowOrder) (p : BitVec 2) (k : Nat) : Nat :=
  match o with
  | .asc => p.toNat + 4 * k
  | .desc => p.toNat + 12 - 4 * k

/-- The FB addresses `BUILD(s)` reads, in the order of the cache indices it writes (R121). -/
def buildAddrs (c : Cfg) (p : BitVec 2) : List Nat :=
  (List.range (rowStride c)).flatMap fun i => (List.range 4).map fun k => rowSel c.order p k * rowStride c + i

/-- One `MemRead` after another; none if an address is outside FB space. -/
def readAll (s : State) : List Nat → Option (List Byte)
  | [] => some []
  | a :: as =>
    match memRead s a, readAll s as with
    | some v, some vs => some (v :: vs)
    | _, _ => none

/-- The bytes `BUILD(s)` writes into `CACHE[0]` to `CACHE[4*RS - 1]` (R121, R123). -/
def buildCache (s : State) (p : BitVec 2) : Option (List Byte) := readAll s (buildAddrs s.cfg p)

end Sys2Proof.Machine
end

