-- ==== Sys2Proof/Machine/Sequencer.lean ====
section
/-! DEFINITION. The row sequencer (`43_row_sequencer.md`): the scan pass in both profiles, and the meanings of `SCAN` and
`FLUSH`. A command runs until it ends or its request has no answer yet (`20_memory.md` R53; log entry 7). -/

namespace Sys2Proof.Machine

/-- The order of the steps of a pass: `PASS_STANDARD` (R137) or `PASS_TRANSMIT_FIRST` (R144). -/
def passOrder : Profile → List Label
  | .standard => [.s1, .s2a, .s2b, .s3a, .s3b, .s4a, .s4b, .s5, .s6]
  | .transmitFirst => [.s2a, .s2b, .s1, .s3a, .s3b, .s4a, .s4b, .s5, .s6]

/-- `lvl(b)` (R19): 0 is `LOW` and 1 is `HIGH` (D12). -/
def lvl (b : Bool) : Level := if b then .high else .low

/-- The level of the first latch request, step 3a: `HIGH` in `STANDARD` (R140), `LOW` in `TRANSMIT_FIRST` (R144). -/
def latchFirst : Profile → Level
  | .standard => .high
  | .transmitFirst => .low

/-- The level of the second latch request, step 3b (R140, R144). -/
def latchSecond : Profile → Level
  | .standard => .low
  | .transmitFirst => .high

/-- The request of a step (R137, R144); none for the steps 2a and 5, which issue none (R145), and for step 6 when
`BRIGHT` is absent under `DUTY`. The row-address bits are those of `PHASE`, which holds the `s` read at the start of the
pass until step 5 writes it (R141, R142; log entry 9). -/
def stepRequest (s : State) : Label → Option Request
  | .s1 => some (blankRequest s)
  | .s2a => none
  | .s2b => some (.bus s.cache)
  | .s3a => some (.line .lat (latchFirst s.cfg.profile))
  | .s3b => some (.line .lat (latchSecond s.cfg.profile))
  | .s4a => some (.line .a (lvl (s.phase.getLsbD 0)))
  | .s4b => some (.line .b (lvl (s.phase.getLsbD 1)))
  | .s5 => none
  | .s6 => unblankRequest s

/-- How far the steps of a command came. -/
inductive Progress where
  /-- Every step ran. -/
  | done (s : State)
  /-- The command ended with an error, or waits for an answer. -/
  | ended (s : State)
  | stopped (r : Fault)

/-- Issue the request of a step (R53): go on after `OK`, raise the request's error after `FAIL` (R145), wait at this
position while there is no answer. -/
def issue (r : Request) (s : State) : Progress :=
  match emit r s with
  | .waiting => .ended s
  | .ok t => .done t
  | .failed t => .ended (raiseError r t)

/-- Step 2a: `BUILD(s)` rewrites the whole cache (R139). -/
def buildStep (s : State) : Progress :=
  match buildCache s s.phase with
  | none => .stopped .fbOutside
  | some d => .done (s.withCache d)

/-- Step 5: `PHASE <- (s + 1) mod 4` (R142). -/
def advanceStep (s : State) : Progress := .done (s.withPhase (s.phase + 1))

/-- A step that issues a request. -/
def requestStep (j : Label) (s : State) : Progress :=
  match stepRequest s j with
  | none => .stopped .brightAbsent
  | some r => issue r s

/-- One step of a pass. -/
def runLabel (j : Label) (s : State) : Progress :=
  match j with
  | .s2a => buildStep s
  | .s5 => advanceStep s
  | .s1 => requestStep .s1 s
  | .s2b => requestStep .s2b s
  | .s3a => requestStep .s3a s
  | .s3b => requestStep .s3b s
  | .s4a => requestStep .s4a s
  | .s4b => requestStep .s4b s
  | .s6 => requestStep .s6 s

/-- Run the steps at the given positions, each after `POS` has reached it (R30). -/
def runSteps (cmd : SeqCmd) : List Pos → State → Progress
  | [], s => .done s
  | p :: ps, s =>
    match runLabel p.j (s.withLife (.busy { cmd := cmd, pos := p })) with
    | .done t => runSteps cmd ps t
    | .ended t => .ended t
    | .stopped r => .stopped r

/-- The positions of one whole pass. -/
def passSteps (f : Profile) (k : Fin 4) : List Pos := (passOrder f).map fun j => { k := k, j := j }

/-- The passes that follow pass `k`: none for `SCAN` (R136), `k+1` to 3 for `FLUSH` (R147). -/
def laterPasses (cmd : SeqCmd) (k : Fin 4) : List (Fin 4) :=
  match cmd with
  | .scan => []
  | .flush => [0, 1, 2, 3].filter fun n => k < n

/-- The positions from `job.pos` to the end of the command. -/
def jobSteps (f : Profile) (job : Job) : List Pos :=
  ((passOrder f).dropWhile fun j => j != job.pos.j).map (fun j => { k := job.pos.k, j := j })
    ++ (laterPasses job.cmd job.pos.k).flatMap (passSteps f)

/-- A command whose steps all ran responds `OK` (R136, R147). -/
def finish : Progress → Host.Outcome State Fault Refusal
  | .done s => .next (respondOk s)
  | .ended s => .next s
  | .stopped r => .fault r

/-- `SCAN` (R136): one pass. -/
def execScan (s : State) : Host.Outcome State Fault Refusal :=
  whenReady s fun s => finish (runSteps .scan (passSteps s.cfg.profile 0) s)

/-- The positions of `FLUSH` (R147): the passes 0 to 3. -/
def flushSteps (f : Profile) : List Pos :=
  passSteps f 0 ++ passSteps f 1 ++ passSteps f 2 ++ passSteps f 3

/-- `FLUSH` (R147): four passes back to back, from the current `PHASE`. -/
def execFlush (s : State) : Host.Outcome State Fault Refusal :=
  whenReady s fun s => finish (runSteps .flush (flushSteps s.cfg.profile) s)

/-- The running command goes on from its position with the answers that have arrived (R30, R53). -/
def resume (job : Job) (s : State) : Host.Outcome State Fault Refusal :=
  finish (runSteps job.cmd (jobSteps s.cfg.profile job) s)

/-- The request in flight (R34): `POS` tells it while a command runs, and a reset in progress waits for `DUTY(B0)`. -/
def State.inFlight (s : State) : Option Request :=
  match s.life with
  | .busy job => stepRequest s job.pos.j
  | .resetting => some (.duty s.cfg.b0)
  | .ready => none
  | .dead => none

/-- The host's scheduler may run other work (R152): in `SUSPENDABLE` mode, while the `BUS` request is in flight. -/
def State.mayYield (s : State) : Bool :=
  match s.life with
  | .busy job => s.cfg.mode == .suspendable && job.pos.j == .s2b
  | .ready => false
  | .dead => false
  | .resetting => false

end Sys2Proof.Machine
end

