-- ==== Sys2Proof/Machine/Dispatch.lean ====
section
/-! DEFINITION. The meaning of each command of the opcode table (`30_encoding.md` R76). -/

namespace Sys2Proof.Machine

def exec (i : Instr) (s : State) : Host.Outcome State Fault Refusal :=
  match i with
  | .setpx x y on => Sys2Proof.Machine.execSetpx x y on s
  | .scan => Sys2Proof.Machine.execScan s
  | .flush => Sys2Proof.Machine.execFlush s
  | .qdim => Sys2Proof.Machine.execQdim s

end Sys2Proof.Machine
end

