-- ==== Sys2Proof/Machine/Reset.lean ====
section
/-! DEFINITION. Reset with a configuration word (`70_reset_and_hazards.md` R201-R206): the counterpart of the source's
construction. -/

namespace Sys2Proof.Machine

/-- The configuration fields of a configuration word (`30_encoding.md` R82). -/
def sampleCfg (w : Word64) : Cfg where
  px := w.extractLsb' 0 10
  py := w.extractLsb' 10 11
  order := if w.getLsbD 21 then .desc else .asc
  strategy := if w.getLsbD 22 then .enable else .duty
  profile := if w.getLsbD 23 then .transmitFirst else .standard
  mode := if w.getLsbD 24 then .suspendable else .blocking
  b0 := w.extractLsb' 32 16

/-- The reserved bits `CFG_WORD[31:25]` and `CFG_WORD[63:48]` are zero (R82). -/
def reservedClear (w : Word64) : Bool := w.extractLsb' 25 7 == 0 && w.extractLsb' 48 16 == 0

/-- The parameters themselves are legal (R6, R7, R11): what R202 asks of the fields. -/
abbrev LegalCfg (cap : Nat) (c : Cfg) : Prop :=
  c.px ≠ 0 ∧ c.py ≠ 0 ∧ (c.profile = .transmitFirst → c.strategy = .enable) ∧ fbBytes c ≤ cap

/-- The configuration check (R202): the word is accepted. -/
abbrev CfgAccepted (cap : Nat) (w : Word64) : Prop := reservedClear w = true ∧ LegalCfg cap (sampleCfg w)

/-- The value of `BRIGHT` after reset (R25, R203): `B0` with `DUTY`, absent with `ENABLE`. -/
def resetBright (c : Cfg) : Option (BitVec 16) :=
  match c.strategy with
  | .duty => some c.b0
  | .enable => none

/-- The reset values of R203, `LIFE` not yet set (R201 step 5). The ports keep their record. The cache's bytes are a
DESIGN CHOICE (log entry 2). -/
def resetState (w : Word64) (s : State) : State :=
  let c := sampleCfg w
  { s with
    cfg := c
    phase := 0
    bright := resetBright c
    fb := []
    cache := List.replicate (cacheBytes c) 0
    life := .resetting }

/-- A construction that fails (R185, R205): its response, and `LIFE = DEAD`. -/
def respondDead (e : Status) (s : State) : State := (s.responded (statusWord e)).withLife .dead

/-- The construction request `DUTY(B0)` and what its answer makes of the block (R204). -/
def construct (s : State) : State :=
  match emit (.duty s.cfg.b0) s with
  | .waiting => s
  | .ok t => respondOk t
  | .failed t => respondDead .brightnessError t

/-- Steps 4 and 5 of reset (R201, R204). -/
def finishReset (s : State) : State :=
  match s.cfg.strategy with
  | .duty => construct s
  | .enable => respondOk s

/-- Reset with configuration word `w` (R201). A rejected word issues no request (R202). -/
def applyReset (w : Word64) (s : State) : State :=
  if CfgAccepted s.fbCapBytes w then finishReset (resetState w s)
  else respondDead .configError (resetState w s)

end Sys2Proof.Machine
end

