-- ==== Sys2Proof/Machine/Port.lean ====
section
/-! DEFINITION. The command port and the reset input: what the block does with the host's next input (`20_memory.md`
R41, R50; `30_encoding.md` R71, R77). -/

namespace Sys2Proof.Machine

/-- An `ILLEGAL` word changes no state and issues no request; its response has status `ILLEGAL_COMMAND` (R77). -/
def execIllegal (s : State) : Host.Outcome State Fault Refusal :=
  whenReady s fun s => .next (respond (statusWord .illegalCommand) s)

/-- A command word is decoded whole and run (R71). -/
def acceptWord (w : Word64) (s : State) : Host.Outcome State Fault Refusal :=
  match decode w with
  | .command i => exec i s
  | .illegal _ => execIllegal s

/-- Between commands: take the host's next input, or do nothing (R186, R193). -/
def takeInput (s : State) : Host.Outcome State Fault Refusal :=
  match s.inputs with
  | [] => .next s
  | .command w :: rest => acceptWord w (s.withInputs rest)
  | .reset w :: rest => .next (applyReset w (s.withInputs rest))

/-- The host presents a command word next, to a block that is ready for it. -/
def presentWord (w : Word64) (s : State) : State := (s.withInputs (.command w :: s.inputs)).withLife .ready

end Sys2Proof.Machine
end

