-- ==== Sys2Proof/Machine/Step.lean ====
section
/-! DEFINITION. One step of the block, and how the host places the next command. -/

namespace Sys2Proof.Machine

/-- One step (log entry 7): a running command goes on (R53), a reset in progress goes on (R204), and between commands
the block takes the host's next input (R29). With no input or no answer the state stays (R193, R216; log entry 13). -/
def step (s : State) : Host.Outcome State Fault Refusal :=
  match s.life with
  | .busy job => resume job s
  | .resetting => .next (finishReset s)
  | .ready => takeInput s
  | .dead => takeInput s

/-- The command of a table word stands next at the command port of a `READY` block (log entry 15). -/
def State.withFetchWord (s : State) (nbits w : Nat) : State := presentWord (tableWord nbits w) s

end Sys2Proof.Machine
end

