-- ==== Sys2Proof/Machine/Assembler.lean ====
section
/-! DEFINITION. The host's assembler (`30_encoding.md` R83) with its pseudo-commands (R84): one line of characters becomes
the command words it stands for. The details of spelling that R83 leaves open are in log entry 19. -/

namespace Sys2Proof.Machine

/-- A lexical unit of an assembler line. -/
inductive Token where
  | word (cs : List Char)
  | int (z : Int)
  | comma
  | lpar
  | rpar
  deriving DecidableEq, Repr

/-- A word or number that is not finished yet; a word's letters are in reverse. -/
inductive Lexeme where
  | none
  | word (rev : List Char)
  | minus
  | number (neg : Bool) (n : Nat)
  deriving DecidableEq, Repr

/-- The token of a finished lexeme; a lone minus sign is none. -/
def closeLexeme : Lexeme → Option (List Token)
  | .none => some []
  | .word rev => some [.word rev.reverse]
  | .minus => Option.none
  | .number neg n => some [.int (if neg then -(n : Int) else (n : Int))]

/-- A lexeme with one more decimal digit. -/
def pushDigit (d : Nat) : Lexeme → Option Lexeme
  | .none => some (.number false d)
  | .minus => some (.number true d)
  | .number neg n => some (.number neg (10 * n + d))
  | .word _ => Option.none

/-- A lexeme with one more letter. -/
def pushLetter (c : Char) : Lexeme → Option Lexeme
  | .none => some (.word [c])
  | .word rev => some (.word (c :: rev))
  | .minus => Option.none
  | .number _ _ => Option.none

/-- A minus sign begins a number. -/
def pushMinus : Lexeme → Option Lexeme
  | .none => some .minus
  | .word _ => Option.none
  | .minus => Option.none
  | .number _ _ => Option.none

/-- The token of a punctuation mark. -/
def punctuation? (c : Char) : Option Token :=
  if c = ',' then some .comma else if c = '(' then some .lpar else if c = ')' then some .rpar else Option.none

/-- Tokens one after another. -/
def joinTokens (l r : Option (List Token)) : Option (List Token) :=
  match l, r with
  | some a, some b => some (a ++ b)
  | _, _ => Option.none

/-- The tokens of a line; a comment starts at `;` (R83). -/
def lexFrom : Lexeme → List Char → Option (List Token)
  | l, [] => closeLexeme l
  | l, c :: cs =>
    if c = ';' then closeLexeme l
    else if c = ' ' then joinTokens (closeLexeme l) (lexFrom .none cs)
    else
      match punctuation? c with
      | some t => joinTokens (closeLexeme l) (joinTokens (some [t]) (lexFrom .none cs))
      | Option.none =>
        let next := if c = '-' then pushMinus l else if c.isDigit then pushDigit (c.toNat - 48) l
          else if c.isUpper then pushLetter c l else Option.none
        match next with
        | some l' => lexFrom l' cs
        | Option.none => Option.none

/-- A line of the assembler: a command (R83), a pseudo-command (R84), or nothing but a comment. -/
inductive AsmLine where
  | blank
  | command (i : Instr)
  | pixon (x y : Int)
  | pixoff (x y : Int)
  | draw (points : List (Int × Int × Bool))
  deriving DecidableEq, Repr

/-- `on` is 0 or 1 (R83). -/
def bitOperand (z : Int) : Option Bool := if z = 0 then some false else if z = 1 then some true else Option.none

/-- The elements of a `DRAW` (R84). -/
def parsePoints : List Token → Option (List (Int × Int × Bool))
  | [.lpar, .int x, .comma, .int y, .comma, .int c, .rpar] => (bitOperand c).map fun on => [(x, y, on)]
  | .lpar :: .int x :: .comma :: .int y :: .comma :: .int c :: .rpar :: .comma :: rest =>
    match bitOperand c, parsePoints rest with
    | some on, some ps => some ((x, y, on) :: ps)
    | _, _ => Option.none
  | _ => Option.none

/-- A line without operands (R83). -/
def parsePlain (m : List Char) : Option AsmLine :=
  if m = "SCAN".toList then some (.command .scan)
  else if m = "FLUSH".toList then some (.command .flush)
  else if m = "QDIM".toList then some (.command .qdim)
  else Option.none

/-- A line with two operands (R84). -/
def parsePair (m : List Char) (x y : Int) : Option AsmLine :=
  if m = "PIXON".toList then some (.pixon x y)
  else if m = "PIXOFF".toList then some (.pixoff x y)
  else Option.none

/-- A line with three operands (R83). -/
def parseTriple (m : List Char) (x y on : Int) : Option AsmLine :=
  if m = "SETPX".toList then (bitOperand on).map fun b => .command (.setpx x y b) else Option.none

/-- A line from its tokens: a mnemonic, then comma-separated operands (R83, R84). -/
def parseTokens : List Token → Option AsmLine
  | [] => some .blank
  | [.word m] => parsePlain m
  | [.word m, .int x, .comma, .int y] => parsePair m x y
  | [.word m, .int x, .comma, .int y, .comma, .int on] => parseTriple m x y on
  | .word m :: rest => if m = "DRAW".toList then (parsePoints rest).map .draw else Option.none
  | _ => Option.none

/-- The commands a line stands for (R84). `DRAW` drops an element whose coordinate has no encoding. -/
def expandLine : AsmLine → List Instr
  | .blank => []
  | .command i => [i]
  | .pixon x y => [.setpx x y true]
  | .pixoff x y => [.setpx x y false]
  | .draw ps => (ps.map fun p => Instr.setpx p.1 p.2.1 p.2.2).filter Instr.wellFormed

/-- The command words of a line; none if it is no line of R83 and R84 or an operand is outside its range. -/
def assembleLine (cs : List Char) : Option (List Word64) :=
  match lexFrom .none cs with
  | Option.none => Option.none
  | some ts =>
    match parseTokens ts with
    | Option.none => Option.none
    | some l => if (expandLine l).all Instr.wellFormed then some ((expandLine l).map encode) else Option.none

end Sys2Proof.Machine
end

