-- ==== Sys2Proof/Safety.lean ====
section
/-! DEFINITION. The terms in which claims about the block are stated: the invariant of its states, the requests a pass
issues (`43_row_sequencer.md` R153), the bytes it transmits (`42_scan_cache.md` R121), the word each failure reports
(`60_exceptions.md` R176), the blanking invariant (R146) and the named assumption `COLLAB_RESPONDS` (R216). They are
written from the rules' tables, beside the machine's own definitions and not from them. -/

namespace Sys2Proof.Machine

/-! ### What a pass transmits and issues -/

/-- Row `k` of the 4-byte group for phase `p` (R122): `s, s+4, s+8, s+12`, or these in reverse. -/
def groupRow (o : RowOrder) (p : BitVec 2) (k : Nat) : Nat :=
  match o with
  | .asc => p.toNat + 4 * k
  | .desc => p.toNat + 4 * (3 - k)

/-- The FB address whose byte `BUILD(p)` puts at cache index `n`: group `n / 4`, position `n % 4` (R121). -/
def cacheSource (c : Cfg) (p : BitVec 2) (n : Nat) : Nat := groupRow c.order p (n % 4) * rowStride c + n / 4

/-- The `4*RS` bytes of row group `p` (R121, R123). -/
def rowGroupBytes (s : State) (p : BitVec 2) : List Byte :=
  (List.range (cacheBytes s.cfg)).map fun n => Memory.read s.fb (cacheSource s.cfg p n)

/-- `BRIGHT` is `v` if the strategy is `DUTY`; with `ENABLE` nothing is asked (R25). -/
abbrev BrightIs (s : State) (v : BitVec 16) : Prop := s.cfg.strategy = .duty → s.bright = some v

/-- The blank request of a strategy (R166). -/
def blankOf (g : Strategy) : Request :=
  match g with
  | .duty => .duty 0
  | .enable => .line .en .low

/-- The unblank request of a strategy with brightness `v` (R166). -/
def unblankOf (g : Strategy) (v : BitVec 16) : Request :=
  match g with
  | .duty => .duty v
  | .enable => .line .en .high

/-- The level of line `A` by phase (R141's table). -/
def levelA (p : BitVec 2) : Level := if p = 1 ∨ p = 3 then .high else .low

/-- The level of line `B` by phase (R141's table). -/
def levelB (p : BitVec 2) : Level := if p = 2 ∨ p = 3 then .high else .low

/-- The seven requests of a complete pass of phase `p` (R153). -/
def passRequests (s : State) (p : BitVec 2) (v : BitVec 16) : List Request :=
  match s.cfg.profile with
  | .standard =>
    [blankOf s.cfg.strategy, .bus (rowGroupBytes s p), .line .lat .high, .line .lat .low, .line .a (levelA p),
      .line .b (levelB p), unblankOf s.cfg.strategy v]
  | .transmitFirst =>
    [.bus (rowGroupBytes s p), blankOf s.cfg.strategy, .line .lat .low, .line .lat .high, .line .a (levelA p),
      .line .b (levelB p), unblankOf s.cfg.strategy v]

/-- The 28 requests of a complete flush from the current phase (R147, R153). -/
def flushRequests (s : State) (v : BitVec 16) : List Request :=
  passRequests s s.phase v ++ passRequests s (s.phase + 1) v ++ passRequests s (s.phase + 2) v
    ++ passRequests s (s.phase + 3) v

/-- Requests that were all answered `OK`. -/
def answeredOk (rs : List Request) : List (Request × Answer) := rs.map fun r => (r, .ok)

/-- The label of the `n`-th request of a pass, counted from 0 (R145's table). -/
def requestLabel (f : Profile) (n : Nat) : Label :=
  match f with
  | .standard => [Label.s1, .s2b, .s3a, .s3b, .s4a, .s4b, .s6].getD n .s6
  | .transmitFirst => [Label.s2b, .s1, .s3a, .s3b, .s4a, .s4b, .s6].getD n .s6

/-- Where the `BUS` request stands among the seven (R145's table). -/
def busIndex (f : Profile) : Nat :=
  match f with
  | .standard => 1
  | .transmitFirst => 0

/-- Where the `BLANK` request stands among the seven (R145's table). -/
def blankIndex (f : Profile) : Nat :=
  match f with
  | .standard => 0
  | .transmitFirst => 1

/-- `PHASE` once a pass of phase `p` has come to its `n`-th request: advanced only at the seventh (R145). -/
def phaseAt (p : BitVec 2) (n : Nat) : BitVec 2 := if n = 6 then p + 1 else p

/-- `CACHE` once a pass of phase `p` has come to its `n`-th request: rebuilt from the `BUS` request on (R139, R145). -/
def cacheAt (s : State) (old : List Byte) (p : BitVec 2) (n : Nat) : List Byte :=
  if busIndex s.cfg.profile ≤ n then rowGroupBytes s p else old

/-- `CACHE` before pass `k` of a flush that began in `s`: the bytes of the pass before it. -/
def cacheBefore (s : State) (k : Nat) : List Byte :=
  if k = 0 then s.cache else rowGroupBytes s (s.phase + BitVec.ofNat 2 (k - 1))

/-- The response word of a command whose request `r` failed (R145, R176). -/
def failWord : Request → Word64
  | .bus _ => 0x1000000000000000#64
  | .duty _ => 0x2000000000000000#64
  | .line _ _ => 0x3000000000000000#64

/-! ### The blanking invariant -/

/-- A request that R146 allows only in the blanked interval. -/
def Request.needsBlank : Request → Bool
  | .line .lat _ => true
  | .line .a _ => true
  | .line .b _ => true
  | .line .en _ => false
  | .bus _ => false
  | .duty _ => false

/-- The requests of one pass in the order issued, with their answers, keep the blanking invariant (R146). `BLANK()` is
the request at index `b`: every latch or row-address request comes strictly after it and after its `OK`. `UNBLANK()` is
the seventh request: every latch or row-address request comes strictly before it, and no earlier request is one. (With
`B0 = 0` the two are the same request, R172, and the position alone tells them apart.) -/
def BlankingKept (b : Nat) (blank unblank : Request) (es : List (Request × Answer)) : Prop :=
  (∀ i r a, es[i]? = some (r, a) → r.needsBlank = true → b < i ∧ i < 6 ∧ es[b]? = some (blank, .ok)) ∧
  (∀ r a, es[6]? = some (r, a) → r = unblank) ∧
  (∀ i r a, es[i]? = some (r, a) → r = unblank → unblank ≠ blank → i = 6)

/-! ### Pixels -/

/-- The bit that holds a pixel; none out of bounds. A cleared bit is lit (R27, R108). -/
def pixelLit (s : State) (x y : Int) : Option Bool :=
  (mapPixel s.cfg x y).map fun am => Memory.read s.fb am.1 &&& am.2 == 0

/-! ### The invariant of the block's states -/

/-- What every state of the block satisfies; `reset` does, and every step keeps it. -/
structure Inv (s : State) : Prop where
  /-- The framebuffer's cells are in canonical form. -/
  fbCanonical : Memory.wf s.fb
  /-- Every cell is inside FB space (R41). -/
  fbInside : ∀ c ∈ s.fb, c.1 < fbBytes s.cfg
  /-- The cache has `4*RS` bytes (R28). -/
  cacheFull : s.cache.length = cacheBytes s.cfg
  /-- `BRIGHT` is `B0` with `DUTY` and absent with `ENABLE` (R25). -/
  brightIsB0 : s.bright = if s.cfg.strategy = .duty then some s.cfg.b0 else none
  /-- A block that is not `DEAD` has a configuration that R202 accepts. -/
  legal : s.life ≠ .dead → LegalCfg s.fbCapBytes s.cfg
  /-- Only a `DUTY` construction waits for an answer (R204). -/
  resetDuty : s.life = .resetting → s.cfg.strategy = .duty
  /-- A running command waits at a step that issues a request (R30). -/
  waits : ∀ job, s.life = .busy job → job.pos.j ≠ .s2a ∧ job.pos.j ≠ .s5
  /-- The pass index of `SCAN` is 0 (R30). -/
  scanPass : ∀ job, s.life = .busy job → job.cmd = .scan → job.pos.k = 0
  /-- A `BUS` request in flight carries the row group of `PHASE`, as FB is (R130, R139). -/
  transmits : ∀ job, s.life = .busy job → job.pos.j = .s2b → s.cache = rowGroupBytes s s.phase

/-! ### Safe outcomes and liveness -/

/-- The outcome is no fault. -/
def NoFault (o : Host.Outcome State Fault Refusal) : Prop := ∀ r, o ≠ .fault r

/-- The next step takes a reset from the host (R201): the block is between commands and a reset is its next input. -/
def TakesReset (s : State) : Prop := (s.life = .ready ∨ s.life = .dead) ∧ ∃ w rest, s.inputs = .reset w :: rest

/-- `COLLAB_RESPONDS` (R216) for a command that issues at most `n` requests: the answers are there. -/
def CollabResponds (n : Nat) (s : State) : Prop := n ≤ s.answers.length

/-- The same outcome with its next state changed. -/
def mapNext (f : State → State) : Host.Outcome State Fault Refusal → Host.Outcome State Fault Refusal
  | .next s => .next (f s)
  | .fault r => .fault r
  | .refused r => .refused r

/-- The host issues commands one after another, each once the one before has responded (R212); the run ends at the
first that does not. -/
def runCommands : List Instr → State → Host.Outcome State Fault Refusal
  | [], s => .next s
  | i :: is, s =>
    match exec i s with
    | .next t => runCommands is t
    | .fault r => .fault r
    | .refused r => .refused r

/-- One element of a batch draw on the framebuffer: the pixel's bit, or nothing out of bounds (R107, R111). -/
def drawPoint (c : Cfg) (m : Memory) (p : Int × Int × Bool) : Memory :=
  match mapPixel c p.1 p.2.1 with
  | none => m
  | some (a, k) => Memory.write m a (if p.2.2 then Memory.read m a &&& ~~~k else Memory.read m a ||| k)

/-- A request with what the brightness strategy decides left out (R169). -/
def Request.neutral : Request → Request
  | .duty _ => .duty 0
  | .line .en _ => .duty 0
  | .line .lat v => .line .lat v
  | .line .a v => .line .a v
  | .line .b v => .line .b v
  | .bus d => .bus d

/-- The trace with what the brightness strategy decides left out (R169). -/
def neutralTrace (es : List (Request × Answer)) : List (Request × Answer) := es.map fun e => (e.1.neutral, e.2)

end Sys2Proof.Machine
end

