-- ==== Sys2Proof/Certificates/Slice0/Obligations.lean ====
section
/-! DEFINITION. The statements for the provers, from the numbered rules of spec/. Each docstring names the rules. -/

open Sys2Proof Sys2Proof.Machine

/-! ## Encoding -/

/-- R85: the six encoding examples, in both directions. -/
def Obligations.SpecExampleWordsDecode : Prop :=
  (encode (.setpx 0 0 true) = 0x1000000100000000#64 ∧ decode 0x1000000100000000#64 = .command (.setpx 0 0 true)) ∧
  (encode (.setpx 31 0 true) = 0x100000010000001F#64 ∧ decode 0x100000010000001F#64 = .command (.setpx 31 0 true)) ∧
  (encode (.setpx 32 0 true) = 0x1000000100000020#64 ∧ decode 0x1000000100000020#64 = .command (.setpx 32 0 true)) ∧
  (encode (.setpx (-1) 3 false) = 0x100000000003FFFF#64 ∧
    decode 0x100000000003FFFF#64 = .command (.setpx (-1) 3 false)) ∧
  (encode (.setpx 40 5 true) = 0x1000000100050028#64 ∧ decode 0x1000000100050028#64 = .command (.setpx 40 5 true)) ∧
  (encode (.setpx 5 (-2) true) = 0x10000001FFFE0005#64 ∧
    decode 0x10000001FFFE0005#64 = .command (.setpx 5 (-2) true))

/-- R73, R74, R75, R83: every well-formed command decodes from its own word. -/
def Obligations.DecodeOfEncodeIsTheCommand : Prop :=
  ∀ i : Instr, i.WellFormed → decode (encode i) = .command i

/-- R74, R86: a word that decodes to a command is that command's only word, and the command is well formed. -/
def Obligations.EncodeOfDecodeIsTheWord : Prop :=
  ∀ (w : Word64) (i : Instr), decode w = .command i → i.WellFormed ∧ encode i = w

/-- R76 and the opcode table: a word decodes to a row's command exactly when it matches the row under its mask. -/
def Obligations.OpcodeTableRowsDecode : Prop :=
  ∀ w : Word64,
    (w &&& 0xFFFFFFFE00000000#64 = 0x1000000000000000#64 ↔ ∃ x y on, decode w = .command (.setpx x y on)) ∧
    (w = 0x2000000000000000#64 ↔ decode w = .command .scan) ∧
    (w = 0x3000000000000000#64 ↔ decode w = .command .flush) ∧
    (w = 0x4000000000000000#64 ↔ decode w = .command .qdim)

/-- R77: which words are `ILLEGAL`, and that a ready block answers one with `0xF000000000000000` and does nothing else. -/
def Obligations.IllegalWordIsAnsweredOnly : Prop :=
  ∀ w : Word64,
    ((∃ why, decode w = .illegal why) ↔
      ((w.toNat / 2 ^ 60 = 0 ∨ 5 ≤ w.toNat / 2 ^ 60) ∨
        (w.toNat / 2 ^ 60 = 1 ∧ w.toNat / 2 ^ 33 % 2 ^ 27 ≠ 0) ∨
        ((w.toNat / 2 ^ 60 = 2 ∨ w.toNat / 2 ^ 60 = 3 ∨ w.toNat / 2 ^ 60 = 4) ∧ w.toNat % 2 ^ 60 ≠ 0))) ∧
    ∀ (s : State) (rest : List HostInput), s.life = .ready → s.inputs = .command w :: rest →
      (∃ why, decode w = .illegal why) →
      step s = .next { s with inputs := rest, responses := s.responses ++ [0xF000000000000000#64] }

/-! ## The step -/

/-- R71: a ready block whose next input is a command word runs the command it decodes to, with the word consumed (R50). -/
def Obligations.StepRunsTheDecodedCommand : Prop :=
  ∀ (s : State) (w : Word64) (i : Instr) (rest : List HostInput),
    s.life = .ready → s.inputs = .command w :: rest → decode w = .command i → step s = exec i { s with inputs := rest }

/-- A word placed with `withFetchWord` is the one the next step runs. -/
def Obligations.PlacedWordRunsNext : Prop :=
  ∀ (s : State) (w : Word64) (i : Instr),
    decode w = .command i → step (s.withFetchWord 64 w.toNat) = exec i { s with life := .ready }

/-- R186, R193: between commands, with nothing from the host, the block does nothing. -/
def Obligations.IdleBlockStays : Prop :=
  ∀ s : State, s.life = .ready ∨ s.life = .dead → s.inputs = [] → step s = .next s

/-- R185, U17: a `DEAD` block refuses every command word, legal or not. -/
def Obligations.DeadBlockRefusesCommands : Prop :=
  ∀ s : State, s.life = .dead →
    (∀ i, exec i s = .refused .commandToDead) ∧
    ∀ w rest, s.inputs = .command w :: rest → step s = .refused .commandToDead

/-- R29, R208, R212: a `BUSY` block takes no command and no reset: its step does not depend on the host's inputs and
leaves them where they are, and a command run in it is refused. -/
def Obligations.BusyBlockTakesNoInput : Prop :=
  ∀ (s : State) (job : Job), s.life = .busy job →
    (∀ is : List HostInput, step { s with inputs := is } = mapNext (fun t => { t with inputs := is }) (step s)) ∧
    (∀ t, step s = .next t → t.inputs = s.inputs) ∧
    ∀ i, exec i s = .refused .commandWhileBusy

/-! ## SETPX and QDIM -/

/-- R106, R108 with R91 to R96: in bounds, `SETPX` clears (lit) or sets (dark) the bit of its pixel and changes nothing
else; the address and the mask are written out here from the rules' formulas. -/
def Obligations.SetpxWritesItsPixel : Prop :=
  ∀ (s : State) (x y : Nat) (on : Bool), s.life = .ready → x < s.cfg.px.toNat * 32 → y < s.cfg.py.toNat * 16 →
    let x' := x % 32 + (x / 32 + s.cfg.px.toNat * (y / 16)) * 32
    let a := x' / 8 + y % 16 * (4 * s.cfg.px.toNat * s.cfg.py.toNat)
    let m := 0x80#8 >>> (x' % 8)
    let v := Memory.read s.fb a
    exec (.setpx x y on) s = .next
      { s with
        fb := Memory.write s.fb a (if on then v &&& ~~~m else v ||| m)
        responses := s.responses ++ [0x0000000000000000#64] }

/-- R107: out of bounds, `SETPX` reads and writes nothing and responds `OK`. -/
def Obligations.SetpxClipsOutOfBounds : Prop :=
  ∀ (s : State) (x y : Int) (on : Bool), s.life = .ready →
    ¬ (0 ≤ x ∧ x < (s.cfg.px.toNat * 32 : Nat) ∧ 0 ≤ y ∧ y < (s.cfg.py.toNat * 16 : Nat)) →
    exec (.setpx x y on) s = .next { s with responses := s.responses ++ [0x0000000000000000#64] }

/-- R182: `SETPX` and `QDIM` never fail; the status (the top four bits) of their one response is always `OK`. -/
def Obligations.SetpxAndQdimNeverFail : Prop :=
  ∀ (s : State) (i : Instr), s.life = .ready → ((∃ x y on, i = .setpx x y on) ∨ i = .qdim) →
    ∃ t w, exec i s = .next t ∧ t.life = .ready ∧ t.responses = s.responses ++ [w] ∧ w.extractLsb' 60 4 = 0#4

/-- R109: an in-bounds `SETPX` decides its pixel and no other; on distinct pixels two commute, on the same pixel the later
one decides. -/
def Obligations.SetpxChangesOnlyItsPixel : Prop :=
  ∀ (s : State) (x y : Int) (on : Bool), s.life = .ready → Memory.wf s.fb → InBounds s.cfg x y →
    ∃ t, exec (.setpx x y on) s = .next t ∧ pixelLit t x y = some on ∧
      (∀ x' y' : Int, (x', y') ≠ (x, y) → pixelLit t x' y' = pixelLit s x' y') ∧
      (∀ (x' y' : Int) (on' : Bool), (x', y') ≠ (x, y) →
        runCommands [.setpx x y on, .setpx x' y' on'] s = runCommands [.setpx x' y' on', .setpx x y on] s) ∧
      ∀ on' : Bool, ∃ u u', exec (.setpx x y on') t = .next u ∧ exec (.setpx x y on') s = .next u' ∧ u.fb = u'.fb

/-- R110: round trip and idempotence. On then off restores a byte whose pixel was dark, off then on one whose pixel was
lit, and setting a pixel to the state it has leaves the framebuffer as it is. -/
def Obligations.SetpxRoundTrip : Prop :=
  ∀ (s : State) (x y : Int) (on : Bool), s.life = .ready → Memory.wf s.fb →
    (pixelLit s x y = some (!on) → ∃ t, runCommands [.setpx x y on, .setpx x y (!on)] s = .next t ∧ t.fb = s.fb) ∧
    (pixelLit s x y = some on → ∃ t, exec (.setpx x y on) s = .next t ∧ t.fb = s.fb)

/-- R84, R111: a batch draw is its elements in list order, each clipped on its own and answered `OK`; the elements the
assembler drops for want of an encoding would have changed nothing. -/
def Obligations.DrawAppliesItsElements : Prop :=
  ∀ (s : State) (ps : List (Int × Int × Bool)), s.life = .ready →
    runCommands (expandLine (.draw ps)) s = .next
      { s with
        fb := ps.foldl (drawPoint s.cfg) s.fb
        responses := s.responses ++ List.replicate (expandLine (.draw ps)).length 0x0000000000000000#64 }

/-- R112, R81: `QDIM` answers `HEIGHT` in bits 31 to 16 and `WIDTH` in bits 15 to 0 and changes nothing. -/
def Obligations.QdimAnswersTheDimensions : Prop :=
  ∀ s : State, s.life = .ready →
    exec .qdim s = .next
      { s with responses := s.responses ++ [BitVec.ofNat 64 (s.cfg.py.toNat * 16 * 2 ^ 16 + s.cfg.px.toNat * 32)] }

/-! ## The mapper -/

/-- R99: every (byte, bit) pair of FB is the image of exactly one on-panel coordinate, and every on-panel coordinate has
an image there. -/
def Obligations.MapIsABijection : Prop :=
  ∀ c : Cfg,
    (∀ x y : Int, InBounds c x y → ∃ a b, a < fbBytes c ∧ b < 8 ∧ mapPixel c x y = some (a, 1#8 <<< b)) ∧
    ∀ a b, a < fbBytes c → b < 8 →
      ∃ x y : Int, mapPixel c x y = some (a, 1#8 <<< b) ∧
        ∀ x' y' : Int, mapPixel c x' y' = some (a, 1#8 <<< b) → x' = x ∧ y' = y

/-- R101: the inverse of `MAP`. -/
def Obligations.MapInverseFormula : Prop :=
  ∀ (c : Cfg) (a b : Nat), a < fbBytes c → b < 8 → ∀ x y : Int,
    (mapPixel c x y = some (a, 1#8 <<< b) ↔
      (x = (32 * ((8 * (a % rowStride c) + (7 - b)) / 32 % c.px.toNat) + (8 * (a % rowStride c) + (7 - b)) % 32 : Nat) ∧
        y = (16 * ((8 * (a % rowStride c) + (7 - b)) / 32 / c.px.toNat) + a / rowStride c : Nat)))

/-- R100: the range of `MAP`, and its largest address at the last pixel with mask 0x01. -/
def Obligations.MapRange : Prop :=
  ∀ c : Cfg,
    (∀ x y a m, mapPixel c x y = some (a, m) → a ≤ 16 * rowStride c - 1 ∧ 16 * rowStride c - 1 = fbBytes c - 1) ∧
    (c.px ≠ 0 → c.py ≠ 0 →
      mapPixel c (displayWidth c - 1 : Nat) (displayHeight c - 1 : Nat) = some (fbBytes c - 1, 0x01#8))

/-- R98: `MAP` has an address exactly on its domain. -/
def Obligations.MapIsUndefinedOutsideItsDomain : Prop :=
  ∀ (c : Cfg) (x y : Int), (mapPixel c x y).isSome = true ↔ (0 ≤ x ∧ x < displayWidth c) ∧ 0 ≤ y ∧ y < displayHeight c

/-- R102: the mapper's intermediate values stay below `2^28` at every configuration the fields can hold. -/
def Obligations.MapFitsThirtyTwoBits : Prop :=
  ∀ (c : Cfg) (x y : Nat), x < displayWidth c → y < displayHeight c →
    chainX c x y < 32 * panelCount c ∧ chainX c x y < 2 ^ 26 ∧ byteAddr c x y < 16 * rowStride c ∧ byteAddr c x y < 2 ^ 28

/-! ## The scan cache builder -/

/-- R121, R123, R125: `BUILD(p)` always succeeds, fills `4*RS` bytes, and byte `4*i + k` is FB byte `rowsel(p, k)*RS + i`. -/
def Obligations.BuildCopiesTheRowGroup : Prop :=
  ∀ (s : State) (p : BitVec 2), ∃ d, buildCache s p = some d ∧ d.length = 4 * rowStride s.cfg ∧
    ∀ i k, i < rowStride s.cfg → k < 4 →
      d[4 * i + k]? = some (Memory.read s.fb
        ((match s.cfg.order with | .asc => p.toNat + 4 * k | .desc => p.toNat + 12 - 4 * k) * rowStride s.cfg + i))

/-- R124: `BUILD(p)` reads exactly the unified rows `p, p+4, p+8, p+12`, each byte once, and the builds of the four phases
read every FB byte exactly once. -/
def Obligations.BuildsReadEveryByteOnce : Prop :=
  ∀ c : Cfg,
    (∀ (p : BitVec 2) (a : Nat), (buildAddrs c p).count a = if a < fbBytes c ∧ a / rowStride c % 4 = p.toNat then 1 else 0) ∧
    ((buildAddrs c 0 ++ buildAddrs c 1 ++ buildAddrs c 2 ++ buildAddrs c 3).Perm (List.range (fbBytes c)))

/-- R127: cache byte `16*q + 4*i + k` of panel `q` holds, most significant bit first, the eight pixels at
`x = 32*(q mod PX) + 8*i + n` of row `y = 16*(q div PX) + rowsel(p, k)`. -/
def Obligations.BuildPanelLayout : Prop :=
  ∀ (s : State) (p : BitVec 2) (q i k n : Nat), q < panelCount s.cfg → i < 4 → k < 4 → n < 8 →
    ∃ d v, buildCache s p = some d ∧ d[16 * q + 4 * i + k]? = some v ∧
      v = Memory.read s.fb (groupRow s.cfg.order p k * rowStride s.cfg + 4 * q + i) ∧
      pixelLit s (32 * (q % s.cfg.px.toNat) + 8 * i + n : Nat) (16 * (q / s.cfg.px.toNat) + groupRow s.cfg.order p k : Nat)
        = some (!v.getLsbD (7 - n))

/-- R128: a framebuffer whose bytes are all equal gives a cache of that byte, in every phase and order. -/
def Obligations.BuildOfUniformFramebuffer : Prop :=
  ∀ (s : State) (p : BitVec 2) (v : Byte), (∀ a, a < fbBytes s.cfg → Memory.read s.fb a = v) →
    buildCache s p = some (List.replicate (4 * rowStride s.cfg) v)

/-- R129: what `BUILD(p)` gives depends on `p`, `ORDER`, `RS` and the bytes of FB alone. -/
def Obligations.BuildCarriesNoState : Prop :=
  ∀ (s t : State) (p : BitVec 2), s.cfg.order = t.cfg.order → rowStride s.cfg = rowStride t.cfg →
    (∀ a, a < fbBytes s.cfg → Memory.read s.fb a = Memory.read t.fb a) → buildCache s p = buildCache t p

/-- R122: `DESC` reverses each 4-byte group of `ASC` and sends the same FB bytes. -/
def Obligations.DescReversesEachGroup : Prop :=
  ∀ (c : Cfg) (p : BitVec 2) (i k : Nat), i < rowStride c → k < 4 →
    (buildAddrs { c with order := .desc } p)[4 * i + k]? = (buildAddrs { c with order := .asc } p)[4 * i + (3 - k)]? ∧
    (buildAddrs { c with order := .desc } p).Perm (buildAddrs { c with order := .asc } p)

/-! ## SCAN -/

/-- R136, R137, R144, R153: with seven `OK` answers `SCAN` issues exactly the seven requests of its profile, rewrites the
cache, advances `PHASE` by one, responds `OK` and changes nothing else. -/
def Obligations.ScanCompletesAPass : Prop :=
  ∀ (s : State) (v : BitVec 16) (rest : List Answer), s.life = .ready → BrightIs s v →
    s.answers = List.replicate 7 .ok ++ rest →
    exec .scan s = .next
      { s with
        phase := s.phase + 1
        cache := rowGroupBytes s s.phase
        answers := rest
        trace := s.trace ++ answeredOk (passRequests s s.phase v)
        responses := s.responses ++ [0x0000000000000000#64] }

/-- R145, R18, R177, R179: the first request answered `FAIL` ends `SCAN` with that request's error; no later request is issued,
`PHASE` is advanced only if the failing request is the unblank, and state already written stays. -/
def Obligations.ScanAbortsAtAFailure : Prop :=
  ∀ (s : State) (v : BitVec 16) (n : Nat) (r : Request) (rest : List Answer), s.life = .ready → BrightIs s v →
    s.answers = List.replicate n .ok ++ .fail :: rest → (passRequests s s.phase v)[n]? = some r →
    exec .scan s = .next
      { s with
        phase := phaseAt s.phase n
        cache := cacheAt s s.cache s.phase n
        answers := rest
        trace := s.trace ++ answeredOk ((passRequests s s.phase v).take n) ++ [(r, .fail)]
        responses := s.responses ++ [failWord r] }

/-- R53, R30, R216: without an answer to its next request `SCAN` stays `BUSY` at that request's step, with that request in
flight and nothing more issued. -/
def Obligations.ScanWaitsForAnAnswer : Prop :=
  ∀ (s : State) (v : BitVec 16) (n : Nat) (r : Request), s.life = .ready → BrightIs s v →
    s.answers = List.replicate n .ok → (passRequests s s.phase v)[n]? = some r →
    ∃ t, exec .scan s = .next t ∧ t.inFlight = some r ∧
      t = { s with
        life := .busy { cmd := .scan, pos := { k := 0, j := requestLabel s.cfg.profile n } }
        phase := phaseAt s.phase n
        cache := cacheAt s s.cache s.phase n
        answers := []
        trace := s.trace ++ answeredOk ((passRequests s s.phase v).take n) }

/-! ## FLUSH -/

/-- R147, R153: with 28 `OK` answers `FLUSH` issues the requests of four passes from the current phase, leaves `PHASE` as it
found it, responds `OK` and changes nothing else. -/
def Obligations.FlushCompletesFourPasses : Prop :=
  ∀ (s : State) (v : BitVec 16) (rest : List Answer), s.life = .ready → BrightIs s v →
    s.answers = List.replicate 28 .ok ++ rest →
    exec .flush s = .next
      { s with
        cache := rowGroupBytes s (s.phase + 3)
        answers := rest
        trace := s.trace ++ answeredOk (flushRequests s v)
        responses := s.responses ++ [0x0000000000000000#64] }

/-- R148: when request `n` of pass `k` of a `FLUSH` fails, `FLUSH` ends with that error, the later passes are not run, and
`PHASE` has advanced `k` times, or `k + 1` times if the failure was at the unblank. -/
def Obligations.FlushAbortsAtAFailure : Prop :=
  ∀ (s : State) (v : BitVec 16) (k n : Nat) (r : Request) (rest : List Answer), s.life = .ready → BrightIs s v → k < 4 →
    n < 7 → s.answers = List.replicate (7 * k + n) .ok ++ .fail :: rest → (flushRequests s v)[7 * k + n]? = some r →
    exec .flush s = .next
      { s with
        phase := s.phase + BitVec.ofNat 2 (if n = 6 then k + 1 else k)
        cache := cacheAt s (cacheBefore s k) (s.phase + BitVec.ofNat 2 k) n
        answers := rest
        trace := s.trace ++ answeredOk ((flushRequests s v).take (7 * k + n)) ++ [(r, .fail)]
        responses := s.responses ++ [failWord r] }

/-- R53, R30: without an answer to request `n` of pass `k`, `FLUSH` stays `BUSY` at that pass and step. -/
def Obligations.FlushWaitsForAnAnswer : Prop :=
  ∀ (s : State) (v : BitVec 16) (k : Fin 4) (n : Nat) (r : Request), s.life = .ready → BrightIs s v → n < 7 →
    s.answers = List.replicate (7 * k + n) .ok → (flushRequests s v)[7 * k + n]? = some r →
    ∃ t, exec .flush s = .next t ∧ t.inFlight = some r ∧
      t = { s with
        life := .busy { cmd := .flush, pos := { k := k, j := requestLabel s.cfg.profile n } }
        phase := s.phase + BitVec.ofNat 2 (if n = 6 then k + 1 else k)
        cache := cacheAt s (cacheBefore s k) (s.phase + BitVec.ofNat 2 k) n
        answers := []
        trace := s.trace ++ answeredOk ((flushRequests s v).take (7 * k + n)) }

/-! ## The sequencer as a whole -/

/-- R53, R54: a command that waits and then goes on with the answers that arrive later comes to the same state as one that
had them all from the start. -/
def Obligations.ResumedRunEqualsOneRun : Prop :=
  ∀ (s t : State) (job : Job) (more : List Answer), step s = .next t → t.life = .busy job →
    step { t with answers := t.answers ++ more } = step { s with answers := s.answers ++ more }

/-- R146: the blanking invariant, in every pass of `SCAN` and `FLUSH`, whatever the answers. -/
def Obligations.BlankingInvariant : Prop :=
  ∀ (s t : State) (i : Instr) (v : BitVec 16), (i = .scan ∨ i = .flush) → BrightIs s v → exec i s = .next t →
    ∃ es, t.trace = s.trace ++ es ∧ ∀ k,
      BlankingKept (blankIndex s.cfg.profile) (blankOf s.cfg.strategy) (unblankOf s.cfg.strategy v)
        ((es.drop (7 * k)).take 7)

/-- R55: with `DUTY` no step issues `LINE(EN, ..)`, with `ENABLE` none issues `DUTY`; the trace only grows. -/
def Obligations.PortUsageByStrategy : Prop :=
  ∀ s t : State, step s = .next t →
    ∃ es, t.trace = s.trace ++ es ∧
      (t.cfg.strategy = .duty → ∀ v a, (Request.line .en v, a) ∉ es) ∧
      (t.cfg.strategy = .enable → ∀ v a, (Request.duty v, a) ∉ es)

/-- R136, R147: whatever the answers, a `SCAN` or `FLUSH` that answers a next state leaves the configuration, `BRIGHT`, FB,
the capacity and the host's inputs alone, only consumes answers, only adds to the trace, and either waits with no response
or is ready again with exactly one. -/
def Obligations.SequencerCommandFrame : Prop :=
  ∀ (s t : State) (i : Instr), (i = .scan ∨ i = .flush) → exec i s = .next t →
    t.cfg = s.cfg ∧ t.bright = s.bright ∧ t.fb = s.fb ∧ t.fbCapBytes = s.fbCapBytes ∧ t.inputs = s.inputs ∧
    (∃ n es, t.answers = s.answers.drop n ∧ t.trace = s.trace ++ es ∧ es.map Prod.snd = s.answers.take n) ∧
    (((∃ job, t.life = .busy job) ∧ t.responses = s.responses) ∨
      (t.life = .ready ∧ ∃ w, t.responses = s.responses ++ [w]))

/-- R25, R26: nothing but a reset writes `CFG` or `BRIGHT`. -/
def Obligations.OnlyResetWritesConfiguration : Prop :=
  ∀ s t : State, ¬ TakesReset s → step s = .next t →
    t.cfg = s.cfg ∧ t.bright = s.bright ∧ t.fbCapBytes = s.fbCapBytes

/-- R113: `QDIM`, `SCAN`, `FLUSH`, an `ILLEGAL` word and a failed command leave FB unchanged; only `SETPX` writes it. Stated of
every step that takes no reset: the framebuffer can change only if a `SETPX` word is taken. -/
def Obligations.OnlySetpxWritesFramebuffer : Prop :=
  ∀ s t : State, ¬ TakesReset s → step s = .next t → t.fb ≠ s.fb →
    s.life = .ready ∧ ∃ w rest x y on, s.inputs = .command w :: rest ∧ decode w = .command (.setpx x y on)

/-- R24, R142: `PHASE` changes only by one advance per pass whose first six requests were answered `OK`: a step that adds no
`OK` answer to the last row-address request (line `B`) leaves it, unless a reset is taken. -/
def Obligations.PhaseCountsAddressedPasses : Prop :=
  ∀ s t : State, ¬ TakesReset s → Inv s → step s = .next t →
    ∃ es, t.trace = s.trace ++ es ∧
      t.phase = s.phase + BitVec.ofNat 2 (es.countP fun e => e == (.line .b .low, .ok) || e == (.line .b .high, .ok))

/-- R149: after `n` completed `SCAN`s, `PHASE` has advanced `n` times, modulo 4. -/
def Obligations.PhaseAfterManyScans : Prop :=
  ∀ (n : Nat) (s : State) (v : BitVec 16) (rest : List Answer), s.life = .ready → BrightIs s v →
    s.answers = List.replicate (7 * n) .ok ++ rest →
    ∃ t, runCommands (List.replicate n .scan) s = .next t ∧ t.life = .ready ∧ t.answers = rest ∧
      t.phase.toNat = (s.phase.toNat + n) % 4

/-- R155: a `FLUSH` that completes, from whatever phase, has sent and latched all four row groups, each built from the
current FB, and leaves `PHASE` where it started. -/
def Obligations.FlushResynchronises : Prop :=
  ∀ s t : State, exec .flush s = .next t → t.responses = s.responses ++ [0x0000000000000000#64] →
    t.phase = s.phase ∧ ∃ es, t.trace = s.trace ++ es ∧
      ∀ p : BitVec 2, ∃ i l₁ l₂, es[i]? = some (.bus (rowGroupBytes s p), .ok) ∧ i < l₁ ∧ l₁ < l₂ ∧ l₂ ≤ i + 3 ∧
        es[l₁]? = some (.line .lat (latchFirst s.cfg.profile), .ok) ∧
        es[l₂]? = some (.line .lat (latchSecond s.cfg.profile), .ok)

/-- R152: in `SUSPENDABLE` mode, and in that mode only, the host may run other work, and only while a `BUS` request is in
flight. -/
def Obligations.SuspensionOnlyAtTransmit : Prop :=
  ∀ s : State, Inv s → (s.mayYield = true ↔
    s.cfg.mode = .suspendable ∧ ∃ job d, s.life = .busy job ∧ s.inFlight = some (.bus d))

/-- R12, R152: `MODE` changes no request, no response and no state value. -/
def Obligations.ModeChangesNothing : Prop :=
  ∀ (s : State) (i : Instr) (m : ExecMode),
    exec i { s with cfg := { s.cfg with mode := m } } =
      mapNext (fun t => { t with cfg := { t.cfg with mode := m } }) (exec i s)

/-- R28, R34, R129: what the cache held before a command is never observed: nothing but the cache can differ after it. -/
def Obligations.CacheContentsAreNotObserved : Prop :=
  ∀ (s : State) (i : Instr) (d : List Byte),
    mapNext (fun t => { t with cache := [] }) (exec i { s with cache := d }) =
      mapNext (fun t => { t with cache := [] }) (exec i s)

/-- R169: under `STANDARD`, changing the strategy changes only the brightness requests and the error word of their failure:
with the same answers every other request, its order, `PHASE`, the cache and FB are the same, and the responses differ only
if the command ended at a failed `DUTY` request. -/
def Obligations.StrategyChangesOnlyBrightness : Prop :=
  ∀ (s t : State) (i : Instr) (v : BitVec 16), s.cfg.profile = .standard → s.cfg.strategy = .duty → s.bright = some v →
    exec i s = .next t →
    ∃ u, exec i { s with cfg := { s.cfg with strategy := .enable }, bright := none } = .next u ∧
      u.phase = t.phase ∧ u.cache = t.cache ∧ u.fb = t.fb ∧ u.life = t.life ∧ u.answers = t.answers ∧
      neutralTrace u.trace = neutralTrace t.trace ∧ u.responses.length = t.responses.length ∧
      (u.responses ≠ t.responses → ∃ w, t.trace.getLast? = some (.duty w, .fail))

/-- R171: every `DUTY` request of a command carries 0 or `B0`. -/
def Obligations.DutyIsZeroOrB0 : Prop :=
  ∀ (s t : State) (i : Instr), Inv s → exec i s = .next t →
    ∃ es, t.trace = s.trace ++ es ∧ ∀ v a, (Request.duty v, a) ∈ es → v = 0 ∨ v = s.cfg.b0

/-- R35, R98, R100: from a state of the invariant no step faults. -/
def Obligations.NoStepFaults : Prop := ∀ s : State, Inv s → NoFault (step s)

/-- R216 with `COLLAB_RESPONDS`: when 28 answers are there, every command ends, with exactly one response. -/
def Obligations.AnsweredCommandsEnd : Prop :=
  ∀ (s : State) (i : Instr), Inv s → s.life = .ready → CollabResponds 28 s →
    ∃ t w, exec i s = .next t ∧ t.life = .ready ∧ t.responses = s.responses ++ [w]

/-! ## Reset -/

/-- R202: a configuration word that breaks a condition is rejected: no request, response `0x4000000000000000`, `DEAD`. -/
def Obligations.ResetRejectsBadConfiguration : Prop :=
  ∀ (s : State) (w : Word64) (rest : List HostInput), s.life = .ready ∨ s.life = .dead → s.inputs = .reset w :: rest →
    (w.toNat % 2 ^ 10 = 0 ∨ w.toNat / 2 ^ 10 % 2 ^ 11 = 0 ∨ w.toNat / 2 ^ 25 % 2 ^ 7 ≠ 0 ∨ w.toNat / 2 ^ 48 ≠ 0 ∨
      (w.toNat / 2 ^ 23 % 2 = 1 ∧ w.toNat / 2 ^ 22 % 2 = 0) ∨
      s.fbCapBytes < 64 * (w.toNat % 2 ^ 10) * (w.toNat / 2 ^ 10 % 2 ^ 11)) →
    ∃ t, step s = .next t ∧ t.life = .dead ∧ t.responses = s.responses ++ [0x4000000000000000#64] ∧
      t.trace = s.trace ∧ t.answers = s.answers ∧ t.inputs = rest

/-- R82, R203: the state a reset leaves after an accepted word, whatever the construction request's answer: the sampled
fields, `PHASE` 0, `BRIGHT`, FB all dark. -/
def Obligations.ResetSetsTheResetValues : Prop :=
  ∀ (s : State) (w : Word64) (rest : List HostInput), s.life = .ready ∨ s.life = .dead → s.inputs = .reset w :: rest →
    CfgAccepted s.fbCapBytes w →
    ∃ t, step s = .next t ∧
      t.cfg.px.toNat = w.toNat % 2 ^ 10 ∧ t.cfg.py.toNat = w.toNat / 2 ^ 10 % 2 ^ 11 ∧
      (t.cfg.order = .desc ↔ w.toNat / 2 ^ 21 % 2 = 1) ∧ (t.cfg.strategy = .enable ↔ w.toNat / 2 ^ 22 % 2 = 1) ∧
      (t.cfg.profile = .transmitFirst ↔ w.toNat / 2 ^ 23 % 2 = 1) ∧
      (t.cfg.mode = .suspendable ↔ w.toNat / 2 ^ 24 % 2 = 1) ∧ t.cfg.b0.toNat = w.toNat / 2 ^ 32 % 2 ^ 16 ∧
      t.phase = 0 ∧ t.bright = (if t.cfg.strategy = .duty then some t.cfg.b0 else none) ∧
      (∀ a, a < fbBytes t.cfg → memRead t a = some 0xFF#8) ∧ t.cache.length = 4 * rowStride t.cfg

/-- R204, R206: an accepted word with `DUTY` issues exactly the request `DUTY(B0)`; `OK` makes the block `READY`, `FAIL` makes it
`DEAD`, each with its response, and without an answer the reset waits with that request in flight. -/
def Obligations.ResetWithDutyConstructs : Prop :=
  ∀ (s : State) (w : Word64) (rest : List HostInput), s.life = .ready ∨ s.life = .dead → s.inputs = .reset w :: rest →
    CfgAccepted s.fbCapBytes w → w.toNat / 2 ^ 22 % 2 = 0 →
    ∃ t, step s = .next t ∧
      (∀ as, s.answers = .ok :: as → t.life = .ready ∧ t.responses = s.responses ++ [0x0000000000000000#64] ∧
        t.trace = s.trace ++ [(.duty t.cfg.b0, .ok)] ∧ t.answers = as) ∧
      (∀ as, s.answers = .fail :: as → t.life = .dead ∧ t.responses = s.responses ++ [0x2000000000000000#64] ∧
        t.trace = s.trace ++ [(.duty t.cfg.b0, .fail)] ∧ t.answers = as) ∧
      (s.answers = [] → t.life = .resetting ∧ t.inFlight = some (.duty t.cfg.b0) ∧ t.responses = s.responses ∧
        t.trace = s.trace)

/-- R204, R206: an accepted word with `ENABLE` issues no request and makes the block `READY` with response `OK`. -/
def Obligations.ResetWithEnableIssuesNothing : Prop :=
  ∀ (s : State) (w : Word64) (rest : List HostInput), s.life = .ready ∨ s.life = .dead → s.inputs = .reset w :: rest →
    CfgAccepted s.fbCapBytes w → w.toNat / 2 ^ 22 % 2 = 1 →
    ∃ t, step s = .next t ∧ t.life = .ready ∧ t.responses = s.responses ++ [0x0000000000000000#64] ∧ t.trace = s.trace ∧
      t.answers = s.answers

/-- R201, R204: a reset that waits for its construction answer finishes with it, as one that had it from the start. -/
def Obligations.ResumedResetEqualsOneReset : Prop :=
  ∀ (s t : State) (more : List Answer), step s = .next t → t.life = .resetting →
    step { t with answers := t.answers ++ more } = step { s with answers := s.answers ++ more }

/-- The model's state after reset (log entries 1, 2, 3) is what a reset with the word of R82's example leaves of a block
whose ports have seen nothing. -/
def Obligations.ResetStateIsTheExampleConfiguration : Prop :=
  step { State.reset with
    inputs := [.reset 0x0000800000000401#64], answers := [.ok], trace := [], responses := [] } = .next State.reset

/-! ## The invariant -/

/-- The state after reset satisfies the invariant. -/
def Obligations.ResetStateSatisfiesInv : Prop := Inv State.reset

/-- R25, R28, R30, R41, R130, R202: every step keeps the invariant. -/
def Obligations.StepKeepsInv : Prop := ∀ s t : State, Inv s → step s = .next t → Inv t
end

