-- ==== Sys2Proof/Laws/Decode.lean ====
section
/-! SUPPORT. The fields of a command word as numbers (`30_encoding.md` R73, R75), and what the decoder can answer. -/

namespace Sys2Proof

theorem opField_toNat (w : Word64) : (opField w).toNat = w.toNat / 2 ^ 60 := by
  have := w.isLt
  simp only [opField, BitVec.extractLsb'_toNat, Nat.shiftRight_eq_div_pow]; omega

theorem reservedField_toNat (w : Word64) : (reservedField w).toNat = w.toNat / 2 ^ 33 % 2 ^ 27 := by
  simp only [reservedField, BitVec.extractLsb'_toNat, Nat.shiftRight_eq_div_pow]

theorem zeroField_toNat (w : Word64) : (zeroField w).toNat = w.toNat % 2 ^ 60 := by
  simp only [zeroField, BitVec.extractLsb'_toNat, Nat.shiftRight_eq_div_pow, Nat.pow_zero, Nat.div_one]

theorem xField_toNat (w : Word64) : (xField w).toNat = w.toNat % 2 ^ 16 := by
  simp only [xField, BitVec.extractLsb'_toNat, Nat.shiftRight_eq_div_pow, Nat.pow_zero, Nat.div_one]

theorem yField_toNat (w : Word64) : (yField w).toNat = w.toNat / 2 ^ 16 % 2 ^ 16 := by
  simp only [yField, BitVec.extractLsb'_toNat, Nat.shiftRight_eq_div_pow]

theorem onField_eq (w : Word64) : onField w = decide (w.toNat / 2 ^ 32 % 2 = 1) := by
  simp [onField, BitVec.getLsbD, Nat.testBit_eq_decide_div_mod_eq]

theorem opField_eq_iff (w : Word64) (v : BitVec 4) : opField w = v ↔ w.toNat / 2 ^ 60 = v.toNat := by
  rw [← BitVec.toNat_inj, opField_toNat]

theorem reservedField_eq_zero_iff (w : Word64) : reservedField w = 0 ↔ w.toNat / 2 ^ 33 % 2 ^ 27 = 0 := by
  rw [← BitVec.toNat_inj, reservedField_toNat]; rfl

theorem zeroField_eq_zero_iff (w : Word64) : zeroField w = 0 ↔ w.toNat % 2 ^ 60 = 0 := by
  rw [← BitVec.toNat_inj, zeroField_toNat]; rfl

/-- The word of a `SETPX` as a number (R83). -/
theorem encodeP_toNat (x y : Int) (on : Bool) : (encodeP x y on).toNat =
    2 ^ 60 + (if on then 1 else 0) * 2 ^ 32 + (BitVec.ofInt 16 y).toNat * 2 ^ 16 + (BitVec.ofInt 16 x).toNat := by
  unfold encodeP
  simp only [BitVec.toNat_append]
  have hx := (BitVec.ofInt 16 x).isLt
  have hy := (BitVec.ofInt 16 y).isLt
  generalize (BitVec.ofInt 16 x).toNat = X at *
  generalize (BitVec.ofInt 16 y).toNat = Y at *
  rw [← Nat.shiftLeft_add_eq_or_of_lt hx, ← Nat.shiftLeft_add_eq_or_of_lt hy]
  cases on <;> simp [Nat.shiftLeft_eq] <;> omega

/-- What a word decodes to, by its fields (R86). -/
inductive DecodeCase (w : Word64) : Decoded → Prop where
  | setpx (hop : opField w = 0x1#4) (h : reservedField w = 0) :
      DecodeCase w (.command (.setpx (sext16 (xField w)) (sext16 (yField w)) (onField w)))
  | scan (hop : opField w = 0x2#4) (h : zeroField w = 0) : DecodeCase w (.command .scan)
  | flush (hop : opField w = 0x3#4) (h : zeroField w = 0) : DecodeCase w (.command .flush)
  | qdim (hop : opField w = 0x4#4) (h : zeroField w = 0) : DecodeCase w (.command .qdim)
  | reservedBits (hop : opField w = 0x1#4) (h : reservedField w ≠ 0) : DecodeCase w (.illegal .reservedBits)
  | operandBits (hop : opField w = 0x2#4 ∨ opField w = 0x3#4 ∨ opField w = 0x4#4) (h : zeroField w ≠ 0) :
      DecodeCase w (.illegal (.operandBits (opField w)))
  | reservedOp (h1 : opField w ≠ 0x1#4) (h2 : opField w ≠ 0x2#4) (h3 : opField w ≠ 0x3#4) (h4 : opField w ≠ 0x4#4) :
      DecodeCase w (.illegal (.reservedOp (opField w)))

/-- The decoder does one of the seven things of `DecodeCase`. -/
theorem decode_cases (w : Word64) : DecodeCase w (decode w) := by
  unfold decode decodeP decodeZ
  split
  · split
    · exact .setpx ‹_› ‹_›
    · exact .reservedBits ‹_› ‹_›
  · split
    · split
      · exact .scan ‹_› ‹_›
      · exact .operandBits (.inl ‹_›) ‹_›
    · split
      · split
        · exact .flush ‹_› ‹_›
        · exact .operandBits (.inr (.inl ‹_›)) ‹_›
      · split
        · split
          · exact .qdim ‹_› ‹_›
          · exact .operandBits (.inr (.inr ‹_›)) ‹_›
        · exact .reservedOp ‹_› ‹_› ‹_› ‹_›

end Sys2Proof
end

