-- ==== Sys2Proof/Laws/State.lean ====
section
/-! SUPPORT. What each field update of the state does to each field. -/

namespace Sys2Proof.Machine

@[simp] theorem State.withPhase_cfg (s : State) (p : BitVec 2) : (s.withPhase p).cfg = s.cfg := rfl
@[simp] theorem State.withPhase_phase (s : State) (p : BitVec 2) : (s.withPhase p).phase = p := rfl
@[simp] theorem State.withPhase_bright (s : State) (p : BitVec 2) : (s.withPhase p).bright = s.bright := rfl
@[simp] theorem State.withPhase_fb (s : State) (p : BitVec 2) : (s.withPhase p).fb = s.fb := rfl
@[simp] theorem State.withPhase_cache (s : State) (p : BitVec 2) : (s.withPhase p).cache = s.cache := rfl
@[simp] theorem State.withPhase_life (s : State) (p : BitVec 2) : (s.withPhase p).life = s.life := rfl
@[simp] theorem State.withPhase_fbCapBytes (s : State) (p : BitVec 2) : (s.withPhase p).fbCapBytes = s.fbCapBytes := rfl
@[simp] theorem State.withPhase_inputs (s : State) (p : BitVec 2) : (s.withPhase p).inputs = s.inputs := rfl
@[simp] theorem State.withPhase_answers (s : State) (p : BitVec 2) : (s.withPhase p).answers = s.answers := rfl
@[simp] theorem State.withPhase_trace (s : State) (p : BitVec 2) : (s.withPhase p).trace = s.trace := rfl
@[simp] theorem State.withPhase_responses (s : State) (p : BitVec 2) : (s.withPhase p).responses = s.responses := rfl

@[simp] theorem State.withFb_cfg (s : State) (m : Memory) : (s.withFb m).cfg = s.cfg := rfl
@[simp] theorem State.withFb_phase (s : State) (m : Memory) : (s.withFb m).phase = s.phase := rfl
@[simp] theorem State.withFb_bright (s : State) (m : Memory) : (s.withFb m).bright = s.bright := rfl
@[simp] theorem State.withFb_fb (s : State) (m : Memory) : (s.withFb m).fb = m := rfl
@[simp] theorem State.withFb_cache (s : State) (m : Memory) : (s.withFb m).cache = s.cache := rfl
@[simp] theorem State.withFb_life (s : State) (m : Memory) : (s.withFb m).life = s.life := rfl
@[simp] theorem State.withFb_fbCapBytes (s : State) (m : Memory) : (s.withFb m).fbCapBytes = s.fbCapBytes := rfl
@[simp] theorem State.withFb_inputs (s : State) (m : Memory) : (s.withFb m).inputs = s.inputs := rfl
@[simp] theorem State.withFb_answers (s : State) (m : Memory) : (s.withFb m).answers = s.answers := rfl
@[simp] theorem State.withFb_trace (s : State) (m : Memory) : (s.withFb m).trace = s.trace := rfl
@[simp] theorem State.withFb_responses (s : State) (m : Memory) : (s.withFb m).responses = s.responses := rfl

@[simp] theorem State.withCache_cfg (s : State) (d : List Byte) : (s.withCache d).cfg = s.cfg := rfl
@[simp] theorem State.withCache_phase (s : State) (d : List Byte) : (s.withCache d).phase = s.phase := rfl
@[simp] theorem State.withCache_bright (s : State) (d : List Byte) : (s.withCache d).bright = s.bright := rfl
@[simp] theorem State.withCache_fb (s : State) (d : List Byte) : (s.withCache d).fb = s.fb := rfl
@[simp] theorem State.withCache_cache (s : State) (d : List Byte) : (s.withCache d).cache = d := rfl
@[simp] theorem State.withCache_life (s : State) (d : List Byte) : (s.withCache d).life = s.life := rfl
@[simp] theorem State.withCache_fbCapBytes (s : State) (d : List Byte) : (s.withCache d).fbCapBytes = s.fbCapBytes := rfl
@[simp] theorem State.withCache_inputs (s : State) (d : List Byte) : (s.withCache d).inputs = s.inputs := rfl
@[simp] theorem State.withCache_answers (s : State) (d : List Byte) : (s.withCache d).answers = s.answers := rfl
@[simp] theorem State.withCache_trace (s : State) (d : List Byte) : (s.withCache d).trace = s.trace := rfl
@[simp] theorem State.withCache_responses (s : State) (d : List Byte) : (s.withCache d).responses = s.responses := rfl

@[simp] theorem State.withLife_cfg (s : State) (l : Life) : (s.withLife l).cfg = s.cfg := rfl
@[simp] theorem State.withLife_phase (s : State) (l : Life) : (s.withLife l).phase = s.phase := rfl
@[simp] theorem State.withLife_bright (s : State) (l : Life) : (s.withLife l).bright = s.bright := rfl
@[simp] theorem State.withLife_fb (s : State) (l : Life) : (s.withLife l).fb = s.fb := rfl
@[simp] theorem State.withLife_cache (s : State) (l : Life) : (s.withLife l).cache = s.cache := rfl
@[simp] theorem State.withLife_life (s : State) (l : Life) : (s.withLife l).life = l := rfl
@[simp] theorem State.withLife_fbCapBytes (s : State) (l : Life) : (s.withLife l).fbCapBytes = s.fbCapBytes := rfl
@[simp] theorem State.withLife_inputs (s : State) (l : Life) : (s.withLife l).inputs = s.inputs := rfl
@[simp] theorem State.withLife_answers (s : State) (l : Life) : (s.withLife l).answers = s.answers := rfl
@[simp] theorem State.withLife_trace (s : State) (l : Life) : (s.withLife l).trace = s.trace := rfl
@[simp] theorem State.withLife_responses (s : State) (l : Life) : (s.withLife l).responses = s.responses := rfl

@[simp] theorem State.withInputs_cfg (s : State) (is : List HostInput) : (s.withInputs is).cfg = s.cfg := rfl
@[simp] theorem State.withInputs_phase (s : State) (is : List HostInput) : (s.withInputs is).phase = s.phase := rfl
@[simp] theorem State.withInputs_bright (s : State) (is : List HostInput) : (s.withInputs is).bright = s.bright := rfl
@[simp] theorem State.withInputs_fb (s : State) (is : List HostInput) : (s.withInputs is).fb = s.fb := rfl
@[simp] theorem State.withInputs_cache (s : State) (is : List HostInput) : (s.withInputs is).cache = s.cache := rfl
@[simp] theorem State.withInputs_life (s : State) (is : List HostInput) : (s.withInputs is).life = s.life := rfl
@[simp] theorem State.withInputs_fbCapBytes (s : State) (is : List HostInput) : (s.withInputs is).fbCapBytes = s.fbCapBytes := rfl
@[simp] theorem State.withInputs_inputs (s : State) (is : List HostInput) : (s.withInputs is).inputs = is := rfl
@[simp] theorem State.withInputs_answers (s : State) (is : List HostInput) : (s.withInputs is).answers = s.answers := rfl
@[simp] theorem State.withInputs_trace (s : State) (is : List HostInput) : (s.withInputs is).trace = s.trace := rfl
@[simp] theorem State.withInputs_responses (s : State) (is : List HostInput) : (s.withInputs is).responses = s.responses := rfl

@[simp] theorem State.withAnswers_cfg (s : State) (as : List Answer) : (s.withAnswers as).cfg = s.cfg := rfl
@[simp] theorem State.withAnswers_phase (s : State) (as : List Answer) : (s.withAnswers as).phase = s.phase := rfl
@[simp] theorem State.withAnswers_bright (s : State) (as : List Answer) : (s.withAnswers as).bright = s.bright := rfl
@[simp] theorem State.withAnswers_fb (s : State) (as : List Answer) : (s.withAnswers as).fb = s.fb := rfl
@[simp] theorem State.withAnswers_cache (s : State) (as : List Answer) : (s.withAnswers as).cache = s.cache := rfl
@[simp] theorem State.withAnswers_life (s : State) (as : List Answer) : (s.withAnswers as).life = s.life := rfl
@[simp] theorem State.withAnswers_fbCapBytes (s : State) (as : List Answer) : (s.withAnswers as).fbCapBytes = s.fbCapBytes := rfl
@[simp] theorem State.withAnswers_inputs (s : State) (as : List Answer) : (s.withAnswers as).inputs = s.inputs := rfl
@[simp] theorem State.withAnswers_answers (s : State) (as : List Answer) : (s.withAnswers as).answers = as := rfl
@[simp] theorem State.withAnswers_trace (s : State) (as : List Answer) : (s.withAnswers as).trace = s.trace := rfl
@[simp] theorem State.withAnswers_responses (s : State) (as : List Answer) : (s.withAnswers as).responses = s.responses := rfl

@[simp] theorem State.traced_cfg (s : State) (r : Request) (a : Answer) : (s.traced r a).cfg = s.cfg := rfl
@[simp] theorem State.traced_phase (s : State) (r : Request) (a : Answer) : (s.traced r a).phase = s.phase := rfl
@[simp] theorem State.traced_bright (s : State) (r : Request) (a : Answer) : (s.traced r a).bright = s.bright := rfl
@[simp] theorem State.traced_fb (s : State) (r : Request) (a : Answer) : (s.traced r a).fb = s.fb := rfl
@[simp] theorem State.traced_cache (s : State) (r : Request) (a : Answer) : (s.traced r a).cache = s.cache := rfl
@[simp] theorem State.traced_life (s : State) (r : Request) (a : Answer) : (s.traced r a).life = s.life := rfl
@[simp] theorem State.traced_fbCapBytes (s : State) (r : Request) (a : Answer) : (s.traced r a).fbCapBytes = s.fbCapBytes := rfl
@[simp] theorem State.traced_inputs (s : State) (r : Request) (a : Answer) : (s.traced r a).inputs = s.inputs := rfl
@[simp] theorem State.traced_answers (s : State) (r : Request) (a : Answer) : (s.traced r a).answers = s.answers := rfl
@[simp] theorem State.traced_trace (s : State) (r : Request) (a : Answer) : (s.traced r a).trace = s.trace ++ [(r, a)] := rfl
@[simp] theorem State.traced_responses (s : State) (r : Request) (a : Answer) : (s.traced r a).responses = s.responses := rfl

@[simp] theorem State.responded_cfg (s : State) (w : Word64) : (s.responded w).cfg = s.cfg := rfl
@[simp] theorem State.responded_phase (s : State) (w : Word64) : (s.responded w).phase = s.phase := rfl
@[simp] theorem State.responded_bright (s : State) (w : Word64) : (s.responded w).bright = s.bright := rfl
@[simp] theorem State.responded_fb (s : State) (w : Word64) : (s.responded w).fb = s.fb := rfl
@[simp] theorem State.responded_cache (s : State) (w : Word64) : (s.responded w).cache = s.cache := rfl
@[simp] theorem State.responded_life (s : State) (w : Word64) : (s.responded w).life = s.life := rfl
@[simp] theorem State.responded_fbCapBytes (s : State) (w : Word64) : (s.responded w).fbCapBytes = s.fbCapBytes := rfl
@[simp] theorem State.responded_inputs (s : State) (w : Word64) : (s.responded w).inputs = s.inputs := rfl
@[simp] theorem State.responded_answers (s : State) (w : Word64) : (s.responded w).answers = s.answers := rfl
@[simp] theorem State.responded_trace (s : State) (w : Word64) : (s.responded w).trace = s.trace := rfl
@[simp] theorem State.responded_responses (s : State) (w : Word64) : (s.responded w).responses = s.responses ++ [w] := rfl

@[simp] theorem State.offer_cfg (s : State) (more : List Answer) : (s.offer more).cfg = s.cfg := rfl
@[simp] theorem State.offer_phase (s : State) (more : List Answer) : (s.offer more).phase = s.phase := rfl
@[simp] theorem State.offer_bright (s : State) (more : List Answer) : (s.offer more).bright = s.bright := rfl
@[simp] theorem State.offer_fb (s : State) (more : List Answer) : (s.offer more).fb = s.fb := rfl
@[simp] theorem State.offer_cache (s : State) (more : List Answer) : (s.offer more).cache = s.cache := rfl
@[simp] theorem State.offer_life (s : State) (more : List Answer) : (s.offer more).life = s.life := rfl
@[simp] theorem State.offer_fbCapBytes (s : State) (more : List Answer) : (s.offer more).fbCapBytes = s.fbCapBytes := rfl
@[simp] theorem State.offer_inputs (s : State) (more : List Answer) : (s.offer more).inputs = s.inputs := rfl
@[simp] theorem State.offer_answers (s : State) (more : List Answer) : (s.offer more).answers = s.answers ++ more := rfl
@[simp] theorem State.offer_trace (s : State) (more : List Answer) : (s.offer more).trace = s.trace := rfl
@[simp] theorem State.offer_responses (s : State) (more : List Answer) : (s.offer more).responses = s.responses := rfl

@[simp] theorem respond_cfg (w : Word64) (s : State) : (respond w s).cfg = s.cfg := rfl
@[simp] theorem respond_phase (w : Word64) (s : State) : (respond w s).phase = s.phase := rfl
@[simp] theorem respond_bright (w : Word64) (s : State) : (respond w s).bright = s.bright := rfl
@[simp] theorem respond_fb (w : Word64) (s : State) : (respond w s).fb = s.fb := rfl
@[simp] theorem respond_cache (w : Word64) (s : State) : (respond w s).cache = s.cache := rfl
@[simp] theorem respond_life (w : Word64) (s : State) : (respond w s).life = .ready := rfl
@[simp] theorem respond_fbCapBytes (w : Word64) (s : State) : (respond w s).fbCapBytes = s.fbCapBytes := rfl
@[simp] theorem respond_inputs (w : Word64) (s : State) : (respond w s).inputs = s.inputs := rfl
@[simp] theorem respond_answers (w : Word64) (s : State) : (respond w s).answers = s.answers := rfl
@[simp] theorem respond_trace (w : Word64) (s : State) : (respond w s).trace = s.trace := rfl
@[simp] theorem respond_responses (w : Word64) (s : State) : (respond w s).responses = s.responses ++ [w] := rfl

end Sys2Proof.Machine
end

