-- ==== Sys2Proof/Laws/Memory.lean ====
section
/-! SUPPORT. The laws of framebuffer memory: read after write, the canonical form, and that two memories in canonical form
that read alike are equal. -/

namespace Sys2Proof.Machine

@[simp] theorem Memory.read_nil (a : Nat) : Memory.read [] a = darkByte := rfl

theorem Memory.wf_nil : Memory.wf [] := by simp [Memory.wf]

theorem cellOf_cases (a : Nat) (v : Byte) :
    (v = darkByte ∧ cellOf a v = []) ∨ (v ≠ darkByte ∧ cellOf a v = [(a, v)]) := by
  unfold cellOf; split <;> simp_all

theorem mem_cellOf {a : Nat} {v : Byte} {c : Host.Cell} (h : c ∈ cellOf a v) : c = (a, v) ∧ v ≠ darkByte := by
  rcases cellOf_cases a v with ⟨-, e⟩ | ⟨hv, e⟩ <;> simp_all

/-- An address below every listed one reads the reset byte. -/
theorem Memory.read_of_lt : ∀ {m : Memory} {a : Nat}, (∀ c ∈ m, a < c.1) → Memory.read m a = darkByte
  | [], _, _ => rfl
  | (b, u) :: m, a, h => by
    have hb : a < b := h (b, u) (by simp)
    have hm := Memory.read_of_lt (m := m) (a := a) fun c hc => h c (by simp [hc])
    simp [Memory.read, hb.ne, hm]

theorem Memory.wf_cons {c : Host.Cell} {m : Memory} :
    Memory.wf (c :: m) ↔ (∀ d ∈ m, c.1 < d.1) ∧ c.2 ≠ darkByte ∧ Memory.wf m := by
  simp only [Memory.wf, List.pairwise_cons, List.mem_cons, forall_eq_or_imp]
  tauto

/-- A cell put before a memory of higher addresses. -/
theorem read_cellOf_append {a : Nat} {v : Byte} {m : Memory} (h : ∀ c ∈ m, a < c.1) (b : Nat) :
    Memory.read (cellOf a v ++ m) b = if b = a then v else Memory.read m b := by
  rcases cellOf_cases a v with ⟨hv, e⟩ | ⟨hv, e⟩
  · rw [e]
    by_cases hb : b = a
    · simp [hb, hv, Memory.read_of_lt h]
    · simp [hb]
  · simp [e, Memory.read]

theorem mem_write {m : Memory} {a : Nat} {v : Byte} {c : Host.Cell} (h : c ∈ Memory.write m a v) :
    c = (a, v) ∨ c ∈ m := by
  induction m with
  | nil => exact .inl (mem_cellOf h).1
  | cons d m ih =>
    obtain ⟨b, u⟩ := d
    simp only [Memory.write] at h
    split at h
    · rcases List.mem_append.1 h with h | h
      · exact .inl (mem_cellOf h).1
      · exact .inr h
    · split at h
      · rcases List.mem_append.1 h with h | h
        · exact .inl (mem_cellOf h).1
        · exact .inr (by simp [h])
      · rcases List.mem_cons.1 h with h | h
        · exact .inr (by simp [h])
        · rcases ih h with h | h
          · exact .inl h
          · exact .inr (by simp [h])

theorem wf_cellOf_append {a : Nat} {v : Byte} {m : Memory} (h : ∀ c ∈ m, a < c.1) (hm : Memory.wf m) :
    Memory.wf (cellOf a v ++ m) := by
  rcases cellOf_cases a v with ⟨hv, e⟩ | ⟨hv, e⟩
  · simpa [e] using hm
  · rw [e]; exact Memory.wf_cons.2 ⟨h, hv, hm⟩

/-- A write keeps the canonical form. -/
theorem Memory.wf_write {m : Memory} (h : Memory.wf m) (a : Nat) (v : Byte) : Memory.wf (Memory.write m a v) := by
  induction m with
  | nil => simpa [Memory.write] using wf_cellOf_append (a := a) (v := v) (m := []) (by simp) Memory.wf_nil
  | cons d m ih =>
    obtain ⟨b, u⟩ := d
    obtain ⟨hlt, hu, hm⟩ := Memory.wf_cons.1 h
    simp only [Memory.write]
    split
    · rename_i hab
      refine wf_cellOf_append (fun c hc => ?_) h
      rcases List.mem_cons.1 hc with rfl | hc
      · exact hab
      · exact hab.trans (hlt c hc)
    · split
      · rename_i hab; subst hab
        exact wf_cellOf_append hlt hm
      · rename_i h1 h2
        refine Memory.wf_cons.2 ⟨fun c hc => ?_, hu, ih hm⟩
        rcases mem_write hc with rfl | hc
        · show b < a; omega
        · exact hlt c hc

/-- What a byte reads as after a write. -/
theorem Memory.read_write {m : Memory} (h : Memory.wf m) (a : Nat) (v : Byte) (b : Nat) :
    Memory.read (Memory.write m a v) b = if b = a then v else Memory.read m b := by
  induction m with
  | nil => simpa [Memory.write] using read_cellOf_append (a := a) (v := v) (m := []) (by simp) b
  | cons d m ih =>
    obtain ⟨c, u⟩ := d
    obtain ⟨hlt, hu, hm⟩ := Memory.wf_cons.1 h
    simp only [Memory.write]
    split
    · rename_i hac
      refine read_cellOf_append (fun d hd => ?_) b
      rcases List.mem_cons.1 hd with rfl | hd
      · exact hac
      · exact hac.trans (hlt d hd)
    · split
      · rename_i hac; subst hac
        rw [read_cellOf_append hlt]
        by_cases hb : b = a <;> simp [hb, Memory.read]
      · rename_i h1 h2
        simp only [Memory.read, ih hm]
        by_cases hb : b = c
        · subst hb; simp; omega
        · simp [hb]

theorem Memory.read_write_same {m : Memory} (h : Memory.wf m) (a : Nat) (v : Byte) :
    Memory.read (Memory.write m a v) a = v := by simp [Memory.read_write h]

theorem Memory.read_write_other {m : Memory} (h : Memory.wf m) {a b : Nat} (v : Byte) (hb : b ≠ a) :
    Memory.read (Memory.write m a v) b = Memory.read m b := by simp [Memory.read_write h, hb]

/-- Two memories in canonical form that read alike are equal. -/
theorem Memory.ext_of_wf : ∀ {m n : Memory}, Memory.wf m → Memory.wf n →
    (∀ a, Memory.read m a = Memory.read n a) → m = n
  | [], [], _, _, _ => rfl
  | [], (b, u) :: n, _, hn, h => by
    obtain ⟨-, hu, -⟩ := Memory.wf_cons.1 hn
    have := h b
    simp [Memory.read] at this
    exact absurd this.symm hu
  | (b, u) :: m, [], hm, _, h => by
    obtain ⟨-, hu, -⟩ := Memory.wf_cons.1 hm
    have := h b
    simp [Memory.read] at this
    exact absurd this hu
  | (b, u) :: m, (c, w) :: n, hm, hn, h => by
    obtain ⟨hbm, hu, hm'⟩ := Memory.wf_cons.1 hm
    obtain ⟨hcn, hw, hn'⟩ := Memory.wf_cons.1 hn
    have hbc : b = c := by
      by_contra hne
      rcases Nat.lt_or_gt_of_ne hne with hlt | hlt
      · have e := h b
        have hd : Memory.read ((c, w) :: n) b = darkByte := Memory.read_of_lt fun d hd => by
          rcases List.mem_cons.1 hd with rfl | hd
          · exact hlt
          · exact hlt.trans (hcn d hd)
        simp only [Memory.read, if_true] at e hd
        exact hu (e.trans hd)
      · have e := h c
        have hd : Memory.read ((b, u) :: m) c = darkByte := Memory.read_of_lt fun d hd => by
          rcases List.mem_cons.1 hd with rfl | hd
          · exact hlt
          · exact hlt.trans (hbm d hd)
        simp only [Memory.read, if_true] at e hd
        exact hw (e.symm.trans hd)
    subst hbc
    have huw : u = w := by simpa [Memory.read] using h b
    subst huw
    have ht : m = n := Memory.ext_of_wf hm' hn' fun a => by
      by_cases ha : a = b
      · subst ha; rw [Memory.read_of_lt hbm, Memory.read_of_lt hcn]
      · simpa [Memory.read, ha] using h a
    rw [ht]

/-- Two writes to one address: the later one counts. -/
theorem Memory.write_write_same {m : Memory} (h : Memory.wf m) (a : Nat) (u v : Byte) :
    Memory.write (Memory.write m a u) a v = Memory.write m a v := by
  refine Memory.ext_of_wf (Memory.wf_write (Memory.wf_write h _ _) _ _) (Memory.wf_write h _ _) fun b => ?_
  simp only [Memory.read_write h, Memory.read_write (Memory.wf_write h _ _)]
  split <;> simp_all

/-- Writes to two addresses commute. -/
theorem Memory.write_write_comm {m : Memory} (h : Memory.wf m) {a b : Nat} (hab : a ≠ b) (u v : Byte) :
    Memory.write (Memory.write m a u) b v = Memory.write (Memory.write m b v) a u := by
  refine Memory.ext_of_wf (Memory.wf_write (Memory.wf_write h _ _) _ _) (Memory.wf_write (Memory.wf_write h _ _) _ _)
    fun c => ?_
  simp only [Memory.read_write h, Memory.read_write (Memory.wf_write h _ _)]
  by_cases h1 : c = b <;> by_cases h2 : c = a <;> simp_all

/-- Writing the byte already held changes nothing (R47). -/
theorem Memory.write_read_self {m : Memory} (h : Memory.wf m) (a : Nat) :
    Memory.write m a (Memory.read m a) = m := by
  refine Memory.ext_of_wf (Memory.wf_write h _ _) h fun b => ?_
  rw [Memory.read_write h]; split <;> simp_all

/-- A write inside FB space keeps every cell inside. -/
theorem Memory.write_inside {m : Memory} {n a : Nat} (h : ∀ c ∈ m, c.1 < n) (ha : a < n) (v : Byte) :
    ∀ c ∈ Memory.write m a v, c.1 < n := by
  intro c hc
  rcases mem_write hc with rfl | hc
  · exact ha
  · exact h c hc

/-- Every named memory operation keeps the canonical form. -/
theorem memWrite_wf {s t : State} {a : Nat} {v : Byte} (h : Memory.wf s.fb) (e : memWrite s a v = some t) :
    Memory.wf t.fb := by
  unfold memWrite at e
  split at e
  · cases e; exact Memory.wf_write h a v
  · cases e

theorem State.reset_wf : Memory.wf State.reset.fb := Memory.wf_nil

end Sys2Proof.Machine
end

