-- ==== Sys2Proof/Laws/Operands.lean ====
section
/-! SUPPORT. The laws of the mapper (`40_pixel_addressing.md`): its range, its inverse, and that distinct pixels have
distinct bits. -/

namespace Sys2Proof.Machine

theorem px_pos_of_bound {c : Cfg} {x : Nat} (h : x < displayWidth c) : 0 < c.px.toNat := by
  unfold displayWidth at h; omega

theorem py_pos_of_bound {c : Cfg} {y : Nat} (h : y < displayHeight c) : 0 < c.py.toNat := by
  unfold displayHeight at h; omega

/-- The panel index stays below `NP` (R92). -/
theorem panelIndex_lt {c : Cfg} {x y : Nat} (hx : x < displayWidth c) (hy : y < displayHeight c) :
    panelIndex c x y < panelCount c := by
  unfold displayWidth at hx
  unfold displayHeight at hy
  unfold panelIndex panelCount
  have h1 : x / 32 < c.px.toNat := by omega
  have h2 : y / 16 + 1 ≤ c.py.toNat := by omega
  calc x / 32 + c.px.toNat * (y / 16) < c.px.toNat * (y / 16) + c.px.toNat := by omega
    _ = c.px.toNat * (y / 16 + 1) := by ring
    _ ≤ c.px.toNat * c.py.toNat := Nat.mul_le_mul_left _ h2

/-- The chain x stays below `32 * NP` (R93). -/
theorem chainX_lt {c : Cfg} {x y : Nat} (hx : x < displayWidth c) (hy : y < displayHeight c) :
    chainX c x y < 32 * panelCount c := by
  have := panelIndex_lt hx hy
  unfold chainX; omega

/-- The byte column stays below `RS`. -/
theorem chainByte_lt {c : Cfg} {x y : Nat} (hx : x < displayWidth c) (hy : y < displayHeight c) :
    chainX c x y / 8 < rowStride c := by
  have := chainX_lt hx hy
  unfold rowStride; omega

/-- An address in row `r`, column `i` of FB space is inside it. -/
theorem row_addr_lt {c : Cfg} {r i : Nat} (hr : r < 16) (hi : i < rowStride c) : r * rowStride c + i < fbBytes c := by
  unfold fbBytes
  calc r * rowStride c + i < r * rowStride c + rowStride c := by omega
    _ = (r + 1) * rowStride c := by ring
    _ ≤ 16 * rowStride c := Nat.mul_le_mul_right _ (by omega)

/-- The byte address is inside FB space (R100). -/
theorem byteAddr_lt {c : Cfg} {x y : Nat} (hx : x < displayWidth c) (hy : y < displayHeight c) :
    byteAddr c x y < fbBytes c := by
  have h := row_addr_lt (c := c) (r := panelRow y) (Nat.mod_lt _ (by decide)) (chainByte_lt hx hy)
  unfold byteAddr; omega

theorem bitPos_lt (c : Cfg) (x y : Nat) : bitPos c x y < 8 := by unfold bitPos; omega

theorem mapPixel_nat {c : Cfg} {x y : Nat} (hx : x < displayWidth c) (hy : y < displayHeight c) :
    mapPixel c x y = some (byteAddr c x y, bitMask (bitPos c x y)) := by
  have : InBounds c x y := ⟨⟨by omega, by exact_mod_cast hx⟩, by omega, by exact_mod_cast hy⟩
  simp [mapPixel, this]

/-- What `MAP` says where it says something. -/
theorem mapPixel_some {c : Cfg} {x y : Int} {a : Nat} {m : Byte} (h : mapPixel c x y = some (a, m)) :
    ∃ x' y' : Nat, x = x' ∧ y = y' ∧ x' < displayWidth c ∧ y' < displayHeight c ∧ a = byteAddr c x' y' ∧
      m = bitMask (bitPos c x' y') := by
  unfold mapPixel at h
  split at h
  · rename_i hb
    obtain ⟨⟨hx0, hx⟩, hy0, hy⟩ := hb
    cases h
    exact ⟨x.toNat, y.toNat, (Int.toNat_of_nonneg hx0).symm, (Int.toNat_of_nonneg hy0).symm, by omega, by omega, rfl, rfl⟩
  · cases h

theorem mapPixel_eq_none {c : Cfg} {x y : Int} : mapPixel c x y = none ↔ ¬ InBounds c x y := by
  unfold mapPixel; split <;> simp_all

theorem mapPixel_lt {c : Cfg} {x y : Int} {a : Nat} {m : Byte} (h : mapPixel c x y = some (a, m)) : a < fbBytes c := by
  obtain ⟨x', y', -, -, hx, hy, rfl, -⟩ := mapPixel_some h
  exact byteAddr_lt hx hy

/-- The row and the column of a byte address. -/
theorem row_col_of_addr {rs i r : Nat} (hi : i < rs) : (i + r * rs) / rs = r ∧ (i + r * rs) % rs = i := by
  constructor
  · rw [Nat.add_mul_div_right _ _ (by omega), Nat.div_eq_of_lt hi]; omega
  · rw [Nat.add_mul_mod_self_right, Nat.mod_eq_of_lt hi]

theorem panel_of_index {px q r : Nat} (hq : q < px) : (q + px * r) % px = q ∧ (q + px * r) / px = r := by
  constructor
  · rw [Nat.add_mul_mod_self_left, Nat.mod_eq_of_lt hq]
  · rw [Nat.add_mul_div_left _ _ (by omega), Nat.div_eq_of_lt hq]; omega

/-- R101, one way: the inverse finds the pixel again. -/
theorem unmapPixel_map {c : Cfg} {x y : Nat} (hx : x < displayWidth c) (hy : y < displayHeight c) :
    unmapPixel c (byteAddr c x y) (bitPos c x y) = (x, y) := by
  have hcol := chainByte_lt hx hy
  obtain ⟨h1, h2⟩ := row_col_of_addr (r := panelRow y) hcol
  have hx' : 8 * (chainX c x y / 8) + (7 - bitPos c x y) = chainX c x y := by unfold bitPos; omega
  unfold unmapPixel
  simp only [byteAddr, h1, h2, hx']
  have hp : chainX c x y / 32 = panelIndex c x y := by unfold chainX; omega
  have hr : chainX c x y % 32 = x % 32 := by unfold chainX; omega
  have hq : x / 32 < c.px.toNat := by unfold displayWidth at hx; omega
  obtain ⟨h3, h4⟩ := panel_of_index (r := y / 16) hq
  have hm : panelIndex c x y % c.px.toNat = x / 32 := h3
  have hd : panelIndex c x y / c.px.toNat = y / 16 := h4
  simp only [hp, hr, hm, hd, panelRow]
  ext <;> simp <;> omega

theorem unmapPixel_lt {c : Cfg} {a b : Nat} (ha : a < fbBytes c) (hb : b < 8) :
    (unmapPixel c a b).1 < displayWidth c ∧ (unmapPixel c a b).2 < displayHeight c := by
  unfold fbBytes rowStride panelCount at ha
  have hpos : 0 < c.px.toNat * c.py.toNat := by
    rcases Nat.eq_zero_or_pos (c.px.toNat * c.py.toNat) with h | h
    · rw [h] at ha; omega
    · exact h
  have hpx : 0 < c.px.toNat := Nat.pos_of_mul_pos_right hpos
  unfold unmapPixel displayWidth displayHeight rowStride panelCount
  generalize hn : c.px.toNat * c.py.toNat = n at *
  have hrow : a / (4 * n) < 16 := by
    rw [Nat.div_lt_iff_lt_mul (by omega)]; omega
  have hcol : a % (4 * n) < 4 * n := Nat.mod_lt _ (by omega)
  have hp : (8 * (a % (4 * n)) + (7 - b)) / 32 < n := by omega
  have hm := Nat.mod_lt ((8 * (a % (4 * n)) + (7 - b)) / 32) hpx
  have hd : (8 * (a % (4 * n)) + (7 - b)) / 32 / c.px.toNat < c.py.toNat := by
    rw [Nat.div_lt_iff_lt_mul hpx, Nat.mul_comm c.py.toNat, hn]; exact hp
  constructor <;> simp only <;> omega

theorem div_of_row {q r : Nat} (h : r < 16) : (16 * q + r) / 16 = q := by omega

theorem mod_of_row {q r : Nat} (h : r < 16) : (16 * q + r) % 16 = r := by omega

/-- R101, the other way: the pixel the inverse finds is mapped to the byte and bit it was found from. -/
theorem map_unmapPixel {c : Cfg} {a b : Nat} (ha : a < fbBytes c) (hb : b < 8) :
    byteAddr c (unmapPixel c a b).1 (unmapPixel c a b).2 = a ∧ bitPos c (unmapPixel c a b).1 (unmapPixel c a b).2 = b := by
  have hrs : 0 < rowStride c := by
    unfold fbBytes at ha; omega
  have hrow : a / rowStride c < 16 := by
    rw [Nat.div_lt_iff_lt_mul hrs]; exact ha
  have hchain : chainX c (unmapPixel c a b).1 (unmapPixel c a b).2 = 8 * (a % rowStride c) + (7 - b) := by
    unfold chainX panelIndex unmapPixel
    simp only
    generalize 8 * (a % rowStride c) + (7 - b) = x'
    have e1 : (32 * (x' / 32 % c.px.toNat) + x' % 32) % 32 = x' % 32 := by omega
    have e2 : (32 * (x' / 32 % c.px.toNat) + x' % 32) / 32 = x' / 32 % c.px.toNat := by omega
    have e3 : (16 * (x' / 32 / c.px.toNat) + a / rowStride c) / 16 = x' / 32 / c.px.toNat := div_of_row hrow
    rw [e1, e2, e3, Nat.mod_add_div]
    omega
  constructor
  · unfold byteAddr
    rw [hchain]
    have e : panelRow (unmapPixel c a b).2 = a / rowStride c := by
      unfold panelRow unmapPixel; exact mod_of_row hrow
    rw [e, show (8 * (a % rowStride c) + (7 - b)) / 8 = a % rowStride c by omega, Nat.mul_comm]
    exact Nat.mod_add_div a (rowStride c)
  · unfold bitPos; rw [hchain]; omega

theorem bitMask_injective {b b' : Nat} (hb : b < 8) (hb' : b' < 8) (h : bitMask b = bitMask b') : b = b' := by
  unfold bitMask at h
  interval_cases b <;> interval_cases b' <;> simp_all

/-- `MAP` is injective (R99). -/
theorem mapPixel_injective {c : Cfg} {x y x' y' : Int} {am : Nat × Byte} (h : mapPixel c x y = some am)
    (h' : mapPixel c x' y' = some am) : x = x' ∧ y = y' := by
  obtain ⟨a, m⟩ := am
  obtain ⟨u, v, rfl, rfl, hu, hv, ha, hm⟩ := mapPixel_some h
  obtain ⟨u', v', rfl, rfl, hu', hv', ha', hm'⟩ := mapPixel_some h'
  have hb := bitMask_injective (bitPos_lt _ _ _) (bitPos_lt _ _ _) (hm.symm.trans hm')
  have e := unmapPixel_map hu hv
  rw [← ha, hb, ha', unmapPixel_map hu' hv'] at e
  simp only [Prod.mk.injEq] at e
  exact ⟨by rw [e.1], by rw [e.2]⟩

/-- The pixel of byte `a`, bit `b` (R101). -/
theorem mapPixel_unmapPixel {c : Cfg} {a b : Nat} (ha : a < fbBytes c) (hb : b < 8) :
    mapPixel c (unmapPixel c a b).1 (unmapPixel c a b).2 = some (a, bitMask b) := by
  obtain ⟨hx, hy⟩ := unmapPixel_lt ha hb
  obtain ⟨h1, h2⟩ := map_unmapPixel ha hb
  rw [mapPixel_nat hx hy, h1, h2]

/-- Two different masks of `MAP` share no bit. -/
theorem bitMask_and {b b' : Nat} (hb : b < 8) (hb' : b' < 8) (h : b ≠ b') : bitMask b &&& bitMask b' = 0 := by
  unfold bitMask
  interval_cases b <;> interval_cases b' <;> first | rfl | exact absurd rfl h

end Sys2Proof.Machine
end

