-- ==== Sys2Proof/Laws/ScanCache.lean ====
section
/-! SUPPORT. The laws of the cache builder (`42_scan_cache.md`): it always succeeds, and what it gives, index by index. -/

namespace Sys2Proof.Machine

theorem memRead_inside {s : State} {a : Nat} (h : a < fbBytes s.cfg) : memRead s a = some (Memory.read s.fb a) := by
  simp [memRead, h]

theorem memWrite_inside {s : State} {a : Nat} (h : a < fbBytes s.cfg) (v : Byte) :
    memWrite s a v = some (s.withFb (Memory.write s.fb a v)) := by simp [memWrite, h]

/-- Groups of four, one after another, are the list by index. -/
theorem flatMap_groups {α : Type} (f : Nat → α) :
    ∀ n, ((List.range n).flatMap fun i => (List.range 4).map fun k => f (4 * i + k)) = (List.range (4 * n)).map f
  | 0 => rfl
  | n + 1 => by
    rw [List.range_succ (n := n), List.flatMap_append, flatMap_groups f n, show 4 * (n + 1) = 4 * n + 4 by ring, List.range_add]
    simp [List.range_succ]

/-- The two ways of writing a group's rows agree (R122). -/
theorem rowSel_eq_groupRow (o : RowOrder) (p : BitVec 2) {k : Nat} (hk : k < 4) : rowSel o p k = groupRow o p k := by
  cases o
  · rfl
  · simp only [rowSel, groupRow]; omega

theorem groupRow_lt (o : RowOrder) (p : BitVec 2) {k : Nat} (hk : k < 4) : groupRow o p k < 16 := by
  have := p.isLt
  cases o <;> simp only [groupRow] <;> omega

/-- The FB addresses of a build, by cache index. -/
theorem buildAddrs_eq (c : Cfg) (p : BitVec 2) : buildAddrs c p = (List.range (cacheBytes c)).map (cacheSource c p) := by
  unfold buildAddrs cacheBytes
  rw [← flatMap_groups]
  refine List.flatMap_congr fun i _ => List.map_congr_left fun k hk => ?_
  have hk : k < 4 := List.mem_range.1 hk
  unfold cacheSource
  rw [rowSel_eq_groupRow _ _ hk, show (4 * i + k) % 4 = k by omega, show (4 * i + k) / 4 = i by omega]

theorem cacheSource_lt {c : Cfg} (p : BitVec 2) {n : Nat} (h : n < cacheBytes c) : cacheSource c p n < fbBytes c :=
  row_addr_lt (groupRow_lt _ _ (Nat.mod_lt _ (by decide))) (by unfold cacheBytes at h; omega)

/-- Reads inside FB space all succeed. -/
theorem readAll_inside {s : State} : ∀ {as : List Nat}, (∀ a ∈ as, a < fbBytes s.cfg) →
    readAll s as = some (as.map (Memory.read s.fb))
  | [], _ => rfl
  | a :: as, h => by
    rw [readAll, memRead_inside (h a (by simp)), readAll_inside fun b hb => h b (by simp [hb])]
    rfl

/-- `BUILD(p)` gives the row group's bytes, in every state (R121, R123). -/
theorem buildCache_eq (s : State) (p : BitVec 2) : buildCache s p = some (rowGroupBytes s p) := by
  unfold buildCache rowGroupBytes
  rw [buildAddrs_eq, readAll_inside, List.map_map]
  · rfl
  · intro a ha
    obtain ⟨n, hn, rfl⟩ := List.mem_map.1 ha
    exact cacheSource_lt p (List.mem_range.1 hn)

@[simp] theorem rowGroupBytes_length (s : State) (p : BitVec 2) : (rowGroupBytes s p).length = cacheBytes s.cfg := by
  simp [rowGroupBytes]

theorem rowGroupBytes_get {s : State} (p : BitVec 2) {n : Nat} (h : n < cacheBytes s.cfg) :
    (rowGroupBytes s p)[n]? = some (Memory.read s.fb (cacheSource s.cfg p n)) := by
  simp [rowGroupBytes, h]

/-- A build depends on the geometry, the order and FB alone (R129). -/
theorem rowGroupBytes_congr {s t : State} (p : BitVec 2) (hc : s.cfg = t.cfg) (hf : s.fb = t.fb) :
    rowGroupBytes s p = rowGroupBytes t p := by simp only [rowGroupBytes, hc, hf]

end Sys2Proof.Machine
end

