-- ==== Sys2Proof/Laws/Ops.lean ====
section
/-! SUPPORT. The laws of the shared operations: response words, requests, the command port, and what `SETPX` and `QDIM`
answer. -/

namespace Sys2Proof.Machine

/-! ### Response words (R80, R81) -/

theorem statusWord_ok : statusWord .ok = 0x0000000000000000#64 := by decide
theorem statusWord_busError : statusWord .busError = 0x1000000000000000#64 := by decide
theorem statusWord_brightnessError : statusWord .brightnessError = 0x2000000000000000#64 := by decide
theorem statusWord_pinError : statusWord .pinError = 0x3000000000000000#64 := by decide
theorem statusWord_configError : statusWord .configError = 0x4000000000000000#64 := by decide
theorem statusWord_illegalCommand : statusWord .illegalCommand = 0xF000000000000000#64 := by decide

/-- A failed request's error word (R176, R177). -/
theorem statusWord_errorOf (r : Request) : statusWord (errorOf r) = failWord r := by
  cases r
  · exact statusWord_busError
  · exact statusWord_pinError
  · exact statusWord_brightnessError

/-- A failure never reports `OK` (R80). -/
theorem failWord_ne_ok (r : Request) : failWord r ≠ 0x0000000000000000#64 := by cases r <;> simp [failWord]

/-- The payload of `QDIM` (R81) as a number. -/
theorem dimensionWord_eq {h w : Nat} (hh : h < 2 ^ 16) (hw : w < 2 ^ 16) :
    dimensionWord h w = BitVec.ofNat 64 (h * 2 ^ 16 + w) := by
  apply BitVec.eq_of_toNat_eq
  simp only [dimensionWord, statusCode, BitVec.toNat_append, BitVec.toNat_ofNat, Nat.shiftLeft_eq]
  rw [Nat.mod_eq_of_lt hh, Nat.mod_eq_of_lt hw, Nat.mod_eq_of_lt (by omega : h * 2 ^ 16 + w < 2 ^ 64)]
  rw [← Nat.shiftLeft_eq _ 16, ← Nat.shiftLeft_add_eq_or_of_lt hw, Nat.shiftLeft_eq]
  simp

/-- A response that changes nothing else: the block was `READY` (R60). -/
theorem respond_ready {s : State} (h : s.life = .ready) (w : Word64) :
    respond w s = { s with responses := s.responses ++ [w] } := by
  obtain ⟨⟩ := s; simp_all [respond, State.responded, State.withLife]

/-! ### Requests (R17, R53) -/

theorem emit_waiting {r : Request} {s : State} (h : s.answers = []) : emit r s = .waiting := by simp [emit, h]

theorem emit_ok {r : Request} {s : State} {rest : List Answer} (h : s.answers = .ok :: rest) :
    emit r s = .ok ((s.traced r .ok).withAnswers rest) := by simp [emit, h]

theorem emit_fail {r : Request} {s : State} {rest : List Answer} (h : s.answers = .fail :: rest) :
    emit r s = .failed ((s.traced r .fail).withAnswers rest) := by simp [emit, h]

/-! ### The command port -/

theorem whenReady_ready {s : State} (h : s.life = .ready) (run : State → Host.Outcome State Fault Refusal) :
    whenReady s run = run s := by simp [whenReady, h]

/-- A command that answers a next state was taken by a ready block (R29). -/
theorem ready_of_whenReady {s t : State} {run : State → Host.Outcome State Fault Refusal}
    (h : whenReady s run = .next t) : s.life = .ready ∧ run s = .next t := by
  unfold whenReady at h
  split at h <;> simp_all

/-- Every command goes through the port. -/
theorem exec_whenReady (i : Instr) (s : State) : ∃ run, exec i s = whenReady s run ∧ ∀ t, run t = match i with
    | .setpx x y on => setPixel x y on t
    | .scan => finish (runSteps .scan (passSteps t.cfg.profile 0) t)
    | .flush => finish (runSteps .flush (flushSteps t.cfg.profile) t)
    | .qdim => .next (respond (dimensionWord (displayHeight t.cfg) (displayWidth t.cfg)) t) := by
  cases i <;> exact ⟨_, rfl, fun _ => rfl⟩

/-- A command in a block that is not ready is refused, by the value of `LIFE` (R185, R212). -/
theorem exec_refused (i : Instr) {s : State} :
    (∀ job, s.life = .busy job → exec i s = .refused .commandWhileBusy) ∧
    (s.life = .dead → exec i s = .refused .commandToDead) ∧
    (s.life = .resetting → exec i s = .refused .commandDuringReset) := by
  obtain ⟨run, h, -⟩ := exec_whenReady i s
  refine ⟨fun job hl => ?_, fun hl => ?_, fun hl => ?_⟩ <;> rw [h] <;> simp [whenReady, hl]

theorem ready_of_exec {i : Instr} {s t : State} (h : exec i s = .next t) : s.life = .ready := by
  obtain ⟨run, e, -⟩ := exec_whenReady i s
  exact (ready_of_whenReady (e ▸ h)).1

theorem exec_scan_ready {s : State} (h : s.life = .ready) :
    exec .scan s = finish (runSteps .scan (passSteps s.cfg.profile 0) s) := by
  simp only [exec, execScan, whenReady_ready h]

theorem exec_flush_ready {s : State} (h : s.life = .ready) :
    exec .flush s = finish (runSteps .flush (flushSteps s.cfg.profile) s) := by
  simp only [exec, execFlush, whenReady_ready h]

/-! ### SETPX and QDIM -/

/-- `SETPX` on a pixel that `MAP` places (R106). -/
theorem exec_setpx_inside {s : State} {x y : Int} {on : Bool} {a : Nat} {m : Byte} (h : s.life = .ready)
    (hm : mapPixel s.cfg x y = some (a, m)) :
    exec (.setpx x y on) s = .next
      { s with
        fb := Memory.write s.fb a (pixelByte on m (Memory.read s.fb a))
        responses := s.responses ++ [0x0000000000000000#64] } := by
  have hb : InBounds s.cfg x y := by
    by_contra hb; rw [mapPixel_eq_none.2 hb] at hm; cases hm
  have ha := mapPixel_lt hm
  simp only [exec, execSetpx, whenReady_ready h, setPixel, if_pos hb, hm, setPixelAt, memRead_inside ha, memWrite_inside ha]
  rw [respondOk, statusWord_ok, respond_ready (by exact h)]
  rfl

/-- `SETPX` out of bounds (R107). -/
theorem exec_setpx_outside {s : State} {x y : Int} {on : Bool} (h : s.life = .ready) (hm : mapPixel s.cfg x y = none) :
    exec (.setpx x y on) s = .next { s with responses := s.responses ++ [0x0000000000000000#64] } := by
  simp only [exec, execSetpx, whenReady_ready h, setPixel, if_neg (mapPixel_eq_none.1 hm)]
  rw [respondOk, statusWord_ok, respond_ready h]

theorem displayWidth_lt (c : Cfg) : displayWidth c < 2 ^ 16 := by
  have := c.px.isLt; unfold displayWidth; omega

theorem displayHeight_lt (c : Cfg) : displayHeight c < 2 ^ 16 := by
  have := c.py.isLt; unfold displayHeight; omega

/-- `QDIM` (R112). -/
theorem exec_qdim {s : State} (h : s.life = .ready) :
    exec .qdim s = .next { s with responses := s.responses ++
      [BitVec.ofNat 64 (displayHeight s.cfg * 2 ^ 16 + displayWidth s.cfg)] } := by
  simp only [exec, execQdim, whenReady_ready h]
  rw [respond_ready h, dimensionWord_eq (displayHeight_lt _) (displayWidth_lt _)]

end Sys2Proof.Machine
end

