-- ==== Sys2Proof/Laws/PerInstr.lean ====
section
/-! SUPPORT. A statement about every command as syntax: its word matches its row of spec/opcode_table.json under the row's
mask (`30_encoding.md` R76). -/

namespace Sys2Proof.Laws.OpcodeRow

/-- The `mask` and the `match` of a command's row in the opcode table. -/
def row : Instr → Word64 × Word64
  | .setpx _ _ _ => (0xFFFFFFFE00000000#64, 0x1000000000000000#64)
  | .scan => (0xFFFFFFFFFFFFFFFF#64, 0x2000000000000000#64)
  | .flush => (0xFFFFFFFFFFFFFFFF#64, 0x3000000000000000#64)
  | .qdim => (0xFFFFFFFFFFFFFFFF#64, 0x4000000000000000#64)

/-- The command's word has the fixed bits of its row (R76). -/
def Statement (i : Instr) : Prop := encode i &&& (row i).1 = (row i).2

theorem setpx (x y : Int) (on : Bool) : Statement (.setpx x y on) := by
  simp only [Statement, row, encode, encodeP]
  generalize BitVec.ofInt 16 x = a
  generalize BitVec.ofInt 16 y = b
  ext i hi
  simp only [BitVec.getElem_and, BitVec.getElem_append]
  cases on <;> interval_cases i <;> simp

theorem scan : Statement .scan := by unfold Statement; decide

theorem flush : Statement .flush := by unfold Statement; decide

theorem qdim : Statement .qdim := by unfold Statement; decide

end Sys2Proof.Laws.OpcodeRow
end

