-- ==== Sys2Proof/Laws/Reset.lean ====
section
/-! SUPPORT. The laws of reset (`70_reset_and_hazards.md` R201-R206): the state it sets, and what it ends in. -/

namespace Sys2Proof.Machine

@[simp] theorem resetState_cfg (w : Word64) (s : State) : (resetState w s).cfg = sampleCfg w := rfl
@[simp] theorem resetState_phase (w : Word64) (s : State) : (resetState w s).phase = 0 := rfl
@[simp] theorem resetState_bright (w : Word64) (s : State) : (resetState w s).bright = resetBright (sampleCfg w) := rfl
@[simp] theorem resetState_fb (w : Word64) (s : State) : (resetState w s).fb = [] := rfl
@[simp] theorem resetState_life (w : Word64) (s : State) : (resetState w s).life = .resetting := rfl
@[simp] theorem resetState_fbCapBytes (w : Word64) (s : State) : (resetState w s).fbCapBytes = s.fbCapBytes := rfl
@[simp] theorem resetState_inputs (w : Word64) (s : State) : (resetState w s).inputs = s.inputs := rfl
@[simp] theorem resetState_answers (w : Word64) (s : State) : (resetState w s).answers = s.answers := rfl
@[simp] theorem resetState_trace (w : Word64) (s : State) : (resetState w s).trace = s.trace := rfl
@[simp] theorem resetState_responses (w : Word64) (s : State) : (resetState w s).responses = s.responses := rfl

theorem resetState_cache_length (w : Word64) (s : State) :
    (resetState w s).cache.length = cacheBytes (sampleCfg w) := List.length_replicate

/-- `BRIGHT` after reset (R203). -/
theorem resetBright_eq (c : Cfg) : resetBright c = if c.strategy = .duty then some c.b0 else none := by
  unfold resetBright
  split <;> rename_i h <;> simp [h]

/-- What the end of a reset can be (R204), from a state `s` whose `LIFE` is not yet set. -/
inductive FinishCase (s : State) : State → Prop where
  | enable (h : s.cfg.strategy = .enable) : FinishCase s (respondOk s)
  | waits (h : s.cfg.strategy = .duty) (ha : s.answers = []) : FinishCase s s
  | ok (h : s.cfg.strategy = .duty) (rest : List Answer) (ha : s.answers = .ok :: rest) :
      FinishCase s (respondOk ((s.traced (.duty s.cfg.b0) .ok).withAnswers rest))
  | failed (h : s.cfg.strategy = .duty) (rest : List Answer) (ha : s.answers = .fail :: rest) :
      FinishCase s (respondDead .brightnessError ((s.traced (.duty s.cfg.b0) .fail).withAnswers rest))

/-- The end of a reset is one of the four of `FinishCase`. -/
theorem finishReset_cases (s : State) : FinishCase s (finishReset s) := by
  unfold finishReset
  split
  · rename_i h
    unfold construct
    rcases ha : s.answers with _ | ⟨_ | _, rest⟩
    · rw [emit_waiting ha]; exact .waits h ha
    · rw [emit_ok ha]; exact .ok h rest ha
    · rw [emit_fail ha]; exact .failed h rest ha
  · exact .enable ‹_›

end Sys2Proof.Machine
end

