-- ==== Sys2Proof/Laws/Sequencer.lean ====
section
/-! SUPPORT. The laws of the row sequencer (`43_row_sequencer.md`): what one step of a pass can do, said once; how a run of
steps composes; and what a whole pass does for every number of arrived answers. -/

namespace Sys2Proof.Machine

/-! ### One step -/

/-- What one step of a pass can do. -/
inductive StepCase (j : Label) (s : State) : Progress → Prop where
  /-- Step 2a rebuilds the cache (R139). -/
  | build (h : j = .s2a) : StepCase j s (.done (s.withCache (rowGroupBytes s s.phase)))
  /-- Step 5 advances `PHASE` (R142). -/
  | advance (h : j = .s5) : StepCase j s (.done (s.withPhase (s.phase + 1)))
  /-- A request answered `OK`. -/
  | answered (r : Request) (rest : List Answer) (hr : stepRequest s j = some r) (ha : s.answers = .ok :: rest) :
      StepCase j s (.done ((s.traced r .ok).withAnswers rest))
  /-- A request answered `FAIL` (R145). -/
  | failed (r : Request) (rest : List Answer) (hr : stepRequest s j = some r) (ha : s.answers = .fail :: rest) :
      StepCase j s (.ended (raiseError r ((s.traced r .fail).withAnswers rest)))
  /-- A request without an answer (R53). -/
  | waits (r : Request) (hr : stepRequest s j = some r) (ha : s.answers = []) : StepCase j s (.ended s)
  /-- `BRIGHT` is absent under `DUTY`. -/
  | absent (h : j = .s6) (hd : s.cfg.strategy = .duty) (hb : s.bright = none) : StepCase j s (.stopped .brightAbsent)

theorem requestStep_none {j : Label} {s : State} (h : stepRequest s j = none) :
    requestStep j s = .stopped .brightAbsent := by simp [requestStep, h]

theorem requestStep_some {j : Label} {s : State} {r : Request} (h : stepRequest s j = some r) :
    StepCase j s (requestStep j s) := by
  unfold requestStep issue emit
  rw [h]
  rcases ha : s.answers with _ | ⟨a, rest⟩
  · simpa [ha] using StepCase.waits r h ha
  · cases a
    · simpa [ha] using StepCase.answered r rest h ha
    · simpa [ha] using StepCase.failed r rest h ha

/-- One step of a pass does one of the six things of `StepCase`. -/
theorem runLabel_cases (j : Label) (s : State) : StepCase j s (runLabel j s) := by
  cases j with
  | s2a => simpa [runLabel, buildStep, buildCache_eq] using StepCase.build rfl
  | s5 => exact StepCase.advance rfl
  | s6 =>
    show StepCase .s6 s (requestStep .s6 s)
    rcases hr : stepRequest s .s6 with _ | r
    · rw [requestStep_none hr]
      simp only [stepRequest, unblankRequest] at hr
      split at hr
      · exact .absent rfl ‹_› (by simpa using hr)
      · cases hr
    · exact requestStep_some hr
  | _ => exact requestStep_some rfl

/-! ### A run of steps -/

/-- The state in which a step runs (R30). -/
def State.at (s : State) (cmd : SeqCmd) (p : Pos) : State := s.withLife (.busy { cmd := cmd, pos := p })

@[simp] theorem runSteps_nil (cmd : SeqCmd) (s : State) : runSteps cmd [] s = .done s := rfl

theorem runSteps_cons (cmd : SeqCmd) (p : Pos) (ps : List Pos) (s : State) :
    runSteps cmd (p :: ps) s =
      match runLabel p.j (s.at cmd p) with
      | .done t => runSteps cmd ps t
      | .ended t => .ended t
      | .stopped r => .stopped r := rfl

/-- A run over two lists is the second run after the first. -/
theorem runSteps_append (cmd : SeqCmd) : ∀ (ps qs : List Pos) (s : State),
    runSteps cmd (ps ++ qs) s =
      match runSteps cmd ps s with
      | .done t => runSteps cmd qs t
      | .ended t => .ended t
      | .stopped r => .stopped r
  | [], _, _ => rfl
  | p :: ps, qs, s => by
    rw [List.cons_append, runSteps_cons, runSteps_cons]
    cases runLabel p.j (s.at cmd p) with
    | done t => exact runSteps_append cmd ps qs t
    | ended t => rfl
    | stopped r => rfl

/-- How a run of steps can end: all steps ran, or the last one that ran failed or waits. `P` is what holds before each step
and after each that was passed. -/
inductive RunCase (P : State → Prop) (cmd : SeqCmd) (ps : List Pos) : Progress → Prop where
  | done (t : State) (h : P t) : RunCase P cmd ps (.done t)
  | failed (u : State) (p : Pos) (r : Request) (rest : List Answer) (hp : p ∈ ps) (h : P u)
      (hl : u.life = .busy { cmd := cmd, pos := p }) (hr : stepRequest u p.j = some r) (ha : u.answers = .fail :: rest) :
      RunCase P cmd ps (.ended (raiseError r ((u.traced r .fail).withAnswers rest)))
  | waits (u : State) (p : Pos) (r : Request) (hp : p ∈ ps) (h : P u) (hl : u.life = .busy { cmd := cmd, pos := p })
      (hr : stepRequest u p.j = some r) (ha : u.answers = []) : RunCase P cmd ps (.ended u)
  | absent (u : State) (h : P u) (hd : u.cfg.strategy = .duty) (hb : u.bright = none) :
      RunCase P cmd ps (.stopped .brightAbsent)

theorem RunCase.mono {P : State → Prop} {cmd : SeqCmd} {p : Pos} {ps : List Pos} {o : Progress}
    (h : RunCase P cmd ps o) : RunCase P cmd (p :: ps) o := by
  cases h with
  | done t h => exact .done t h
  | failed u q r rest hq h hl hr ha => exact .failed u q r rest (by simp [hq]) h hl hr ha
  | waits u q r hq h hl hr ha => exact .waits u q r (by simp [hq]) h hl hr ha
  | absent u h hd hb => exact .absent u h hd hb

/-- The one induction over a run: a property that the four ways of going on keep holds wherever the run ends. -/
theorem runSteps_cases {P : State → Prop} {cmd : SeqCmd}
    (hat : ∀ s p, P s → P (s.at cmd p))
    (hbuild : ∀ s, P s → P (s.withCache (rowGroupBytes s s.phase)))
    (hadv : ∀ s, P s → P (s.withPhase (s.phase + 1)))
    (hans : ∀ s j r rest, P s → stepRequest s j = some r → s.answers = .ok :: rest →
      P ((s.traced r .ok).withAnswers rest)) :
    ∀ (ps : List Pos) (s : State), P s → RunCase P cmd ps (runSteps cmd ps s)
  | [], s, h => .done s h
  | p :: ps, s, h => by
    have hp := hat s p h
    have hc := runLabel_cases p.j (s.at cmd p)
    rw [runSteps_cons]
    generalize runLabel p.j (s.at cmd p) = o at hc
    cases hc with
    | build e => exact (runSteps_cases hat hbuild hadv hans ps _ (hbuild _ hp)).mono
    | advance e => exact (runSteps_cases hat hbuild hadv hans ps _ (hadv _ hp)).mono
    | answered r rest hr ha => exact (runSteps_cases hat hbuild hadv hans ps _ (hans _ _ r rest hp hr ha)).mono
    | failed r rest hr ha => exact .failed _ p r rest (by simp) hp rfl hr ha
    | waits r hr ha => exact .waits _ p r (by simp) hp rfl hr ha
    | absent e hd hb => exact .absent _ hp hd hb

/-- A run's result with its state changed. -/
def Progress.map (f : State → State) : Progress → Progress
  | .done s => .done (f s)
  | .ended s => .ended (f s)
  | .stopped r => .stopped r

/-- A change of the state that no step looks at, and that every step carries along, can be made before a run or after. -/
theorem runSteps_map {f : State → State} {cmd : SeqCmd}
    (hat : ∀ s p, (f s).at cmd p = f (s.at cmd p))
    (hreq : ∀ s j, stepRequest (f s) j = stepRequest s j)
    (hans : ∀ s, (f s).answers = s.answers)
    (hbuild : ∀ s, (f s).withCache (rowGroupBytes (f s) (f s).phase) = f (s.withCache (rowGroupBytes s s.phase)))
    (hadv : ∀ s, (f s).withPhase ((f s).phase + 1) = f (s.withPhase (s.phase + 1)))
    (htrace : ∀ s r a rest, ((f s).traced r a).withAnswers rest = f ((s.traced r a).withAnswers rest))
    (hraise : ∀ s r, raiseError r (f s) = f (raiseError r s)) :
    ∀ (ps : List Pos) (s : State), runSteps cmd ps (f s) = (runSteps cmd ps s).map f
  | [], _ => rfl
  | p :: ps, s => by
    have hstep : ∀ (j : Label) (u : State), runLabel j (f u) = (runLabel j u).map f := by
      intro j u
      have hrs : requestStep j (f u) = (requestStep j u).map f := by
        unfold requestStep
        rw [hreq]
        rcases stepRequest u j with _ | r
        · rfl
        · rcases ha : u.answers with _ | ⟨_ | _, rest⟩ <;>
            simp only [issue, emit, hans, ha, Progress.map, htrace, hraise]
      cases j with
      | s2a => simp only [runLabel, buildStep, buildCache_eq, Progress.map, hbuild]
      | s5 => simp only [runLabel, advanceStep, Progress.map, hadv]
      | _ => exact hrs
    rw [runSteps_cons, runSteps_cons, hat, hstep]
    cases runLabel p.j (s.at cmd p) with
    | done t => exact runSteps_map hat hreq hans hbuild hadv htrace hraise ps t
    | ended t => rfl
    | stopped r => rfl

/-! ### A whole pass -/

theorem lvl_zero (p : BitVec 2) : lvl p[0] = levelA p := by revert p; decide

theorem lvl_one (p : BitVec 2) : lvl p[1] = levelB p := by revert p; decide

@[simp] theorem passRequests_length (s : State) (p : BitVec 2) (v : BitVec 16) : (passRequests s p v).length = 7 := by
  unfold passRequests; split <;> rfl

theorem passRequests_lt {s : State} {p : BitVec 2} {v : BitVec 16} {n : Nat} {r : Request}
    (h : (passRequests s p v)[n]? = some r) : n < 7 := by
  obtain ⟨hn, -⟩ := List.getElem?_eq_some_iff.1 h
  simpa using hn

/-- The requests of a pass depend on the configuration and FB alone. -/
theorem passRequests_congr {s t : State} (hc : t.cfg = s.cfg) (hf : t.fb = s.fb) (p : BitVec 2) (v : BitVec 16) :
    passRequests t p v = passRequests s p v := by
  simp only [passRequests, hc, rowGroupBytes_congr p hc hf]

/-- A pass whose seven requests are answered `OK` (R153). -/
theorem pass_done {s : State} {v : BitVec 16} {rest : List Answer} (cmd : SeqCmd) (k : Fin 4) (hb : BrightIs s v)
    (ha : s.answers = List.replicate 7 .ok ++ rest) :
    runSteps cmd (passSteps s.cfg.profile k) s = .done
      { s with
        life := .busy { cmd := cmd, pos := { k := k, j := .s6 } }
        phase := s.phase + 1
        cache := rowGroupBytes s s.phase
        answers := rest
        trace := s.trace ++ answeredOk (passRequests s s.phase v) } := by
  obtain ⟨⟨px, py, order, strategy, profile, mode, b0⟩, phase, bright, fb, cache, life, cap, inputs, answers, trace,
    responses⟩ := s
  simp only at ha
  subst ha
  cases profile <;> cases strategy <;>
    simp_all [passSteps, passOrder, runSteps, runLabel, requestStep, stepRequest, issue, emit, State.withLife,
      State.traced, State.withAnswers, State.withCache, State.withPhase, buildStep, advanceStep, buildCache_eq,
      blankRequest, unblankRequest, blankOf, unblankOf, latchFirst, latchSecond, lvl_zero, lvl_one, passRequests,
      answeredOk, rowGroupBytes, List.replicate]

/-- A pass whose `n`-th request is answered `FAIL`, the ones before it `OK` (R145). -/
theorem pass_failed {s : State} {v : BitVec 16} {n : Nat} {r : Request} {rest : List Answer} (cmd : SeqCmd) (k : Fin 4)
    (hb : BrightIs s v) (ha : s.answers = List.replicate n .ok ++ .fail :: rest)
    (hr : (passRequests s s.phase v)[n]? = some r) :
    runSteps cmd (passSteps s.cfg.profile k) s = .ended
      { s with
        life := .ready
        phase := phaseAt s.phase n
        cache := cacheAt s s.cache s.phase n
        answers := rest
        trace := s.trace ++ answeredOk ((passRequests s s.phase v).take n) ++ [(r, .fail)]
        responses := s.responses ++ [failWord r] } := by
  have hn := passRequests_lt hr
  obtain ⟨⟨px, py, order, strategy, profile, mode, b0⟩, phase, bright, fb, cache, life, cap, inputs, answers, trace,
    responses⟩ := s
  simp only at ha
  subst ha
  interval_cases n <;> cases profile <;> cases strategy <;>
    simp_all [passSteps, passOrder, runSteps, runLabel, requestStep, stepRequest, issue, emit, State.withLife,
      State.traced, State.withAnswers, State.withCache, State.withPhase, State.responded, respond, raiseError, buildStep,
      advanceStep, buildCache_eq, blankRequest, unblankRequest, blankOf, unblankOf, latchFirst, latchSecond, lvl_zero,
      lvl_one, passRequests, answeredOk, rowGroupBytes, phaseAt, cacheAt, busIndex, statusWord_errorOf,
      List.replicate]

/-- A pass that waits at its `n`-th request, the ones before it answered `OK` (R53). -/
theorem pass_waits {s : State} {v : BitVec 16} {n : Nat} {r : Request} (cmd : SeqCmd) (k : Fin 4)
    (hb : BrightIs s v) (ha : s.answers = List.replicate n .ok) (hr : (passRequests s s.phase v)[n]? = some r) :
    runSteps cmd (passSteps s.cfg.profile k) s = .ended
      { s with
        life := .busy { cmd := cmd, pos := { k := k, j := requestLabel s.cfg.profile n } }
        phase := phaseAt s.phase n
        cache := cacheAt s s.cache s.phase n
        answers := []
        trace := s.trace ++ answeredOk ((passRequests s s.phase v).take n) } := by
  have hn := passRequests_lt hr
  obtain ⟨⟨px, py, order, strategy, profile, mode, b0⟩, phase, bright, fb, cache, life, cap, inputs, answers, trace,
    responses⟩ := s
  simp only at ha
  subst ha
  interval_cases n <;> cases profile <;> cases strategy <;>
    simp_all [passSteps, passOrder, runSteps, runLabel, requestStep, stepRequest, issue, emit, State.withLife,
      State.traced, State.withAnswers, State.withCache, State.withPhase, buildStep,
      advanceStep, buildCache_eq, blankRequest, unblankRequest, blankOf, unblankOf, latchFirst, latchSecond, lvl_zero,
      lvl_one, passRequests, answeredOk, rowGroupBytes, phaseAt, cacheAt, busIndex, requestLabel, List.replicate]

/-- The request of the `n`-th label, in any state that has come to it (R53): the one in flight there. -/
theorem stepRequest_requestLabel {s t : State} {v : BitVec 16} {n : Nat} {r : Request} (p : BitVec 2)
    (hr : (passRequests s p v)[n]? = some r) (hc : t.cfg = s.cfg) (hbs : t.bright = s.bright) (hb : BrightIs s v)
    (hphase : n ≠ 6 → t.phase = p) (hcache : busIndex s.cfg.profile ≤ n → t.cache = rowGroupBytes s p) :
    stepRequest t (requestLabel s.cfg.profile n) = some r := by
  have hn := passRequests_lt hr
  obtain ⟨⟨px, py, order, strategy, profile, mode, b0⟩, phase, bright, fb, cache, life, cap, inputs, answers, trace,
    responses⟩ := s
  obtain ⟨c', phase', bright', fb', cache', life', cap', inputs', answers', trace', responses'⟩ := t
  simp only at hc hbs
  subst hc hbs
  interval_cases n <;> cases profile <;> cases strategy <;>
    simp_all [stepRequest, requestLabel, passRequests, blankRequest, unblankRequest, blankOf, unblankOf, latchFirst,
      latchSecond, lvl_zero, lvl_one, busIndex]

/-! ### Passes one after another -/

/-- The requests of the first `n` passes from the current phase. -/
def passesRequests (s : State) (v : BitVec 16) (n : Nat) : List Request :=
  (List.range n).flatMap fun i => passRequests s (s.phase + BitVec.ofNat 2 i) v

theorem passesRequests_succ (s : State) (v : BitVec 16) (n : Nat) :
    passesRequests s v (n + 1) = passesRequests s v n ++ passRequests s (s.phase + BitVec.ofNat 2 n) v := by
  simp [passesRequests, List.range_succ]

@[simp] theorem passesRequests_length (s : State) (v : BitVec 16) (n : Nat) : (passesRequests s v n).length = 7 * n := by
  induction n with
  | zero => rfl
  | succ n ih => rw [passesRequests_succ, List.length_append, ih, passRequests_length]; ring

theorem flushRequests_eq (s : State) (v : BitVec 16) : flushRequests s v = passesRequests s v 4 := by
  simp [flushRequests, passesRequests, List.range_succ]

theorem answeredOk_append (l m : List Request) : answeredOk (l ++ m) = answeredOk l ++ answeredOk m := by
  simp [answeredOk]

/-- Passes that are all answered `OK`. -/
theorem passes_done (cmd : SeqCmd) {v : BitVec 16} : ∀ (ks : List (Fin 4)) {s : State} {rest : List Answer}, BrightIs s v →
    s.answers = List.replicate (7 * ks.length) .ok ++ rest →
    ∃ l, runSteps cmd (ks.flatMap (passSteps s.cfg.profile)) s = .done
      { s with
        life := l
        phase := s.phase + BitVec.ofNat 2 ks.length
        cache := cacheBefore s ks.length
        answers := rest
        trace := s.trace ++ answeredOk (passesRequests s v ks.length) }
  | [], s, rest, _, ha => ⟨s.life, by
      have : s.answers = rest := by simpa using ha
      subst this
      simp [passesRequests, cacheBefore, answeredOk]⟩
  | k :: ks, s, rest, hb, ha => by
    have ha' : s.answers = List.replicate 7 .ok ++ (List.replicate (7 * ks.length) .ok ++ rest) := by
      rw [ha, ← List.append_assoc, List.replicate_append_replicate, List.length_cons, Nat.mul_succ, Nat.add_comm]
    have h1 := pass_done cmd k hb ha'
    obtain ⟨l, h2⟩ := passes_done cmd ks (s :=
      { s with
        life := .busy { cmd := cmd, pos := { k := k, j := .s6 } }
        phase := s.phase + 1
        cache := rowGroupBytes s s.phase
        answers := List.replicate (7 * ks.length) .ok ++ rest
        trace := s.trace ++ answeredOk (passRequests s s.phase v) }) (rest := rest) hb rfl
    refine ⟨l, ?_⟩
    rw [List.flatMap_cons, runSteps_append, h1]
    refine h2.trans ?_
    have hph : s.phase + 1 + BitVec.ofNat 2 ks.length = s.phase + BitVec.ofNat 2 (ks.length + 1) := by
      rw [BitVec.add_assoc, BitVec.ofNat_add, BitVec.add_comm (1 : BitVec 2)]; rfl
    have hreq : passRequests s s.phase v ++ ((List.range ks.length).flatMap fun i =>
        passRequests s (s.phase + 1 + BitVec.ofNat 2 i) v) = passesRequests s v (ks.length + 1) := by
      unfold passesRequests
      rw [List.range_succ_eq_map, List.flatMap_cons, List.flatMap_map]
      congr 1
      · simp
      · refine List.flatMap_congr fun i _ => ?_
        rw [BitVec.add_assoc, Nat.succ_eq_add_one, BitVec.ofNat_add, BitVec.add_comm (1 : BitVec 2)]; rfl
    have hca : cacheBefore { s with cache := rowGroupBytes s s.phase, phase := s.phase + 1 } ks.length =
        cacheBefore s (ks.length + 1) := by
      unfold cacheBefore
      rcases ks.length with _ | n
      · simp
      · simp only [Nat.add_eq_zero_iff, one_ne_zero, and_false, if_false, Nat.add_sub_cancel]
        rw [BitVec.add_assoc, BitVec.ofNat_add, BitVec.add_comm (1 : BitVec 2)]; rfl
    simp only [List.length_cons, ← hph, ← hreq, answeredOk_append, List.append_assoc, ← hca]
    rfl

end Sys2Proof.Machine
end

