-- ==== Sys2Proof/Laws/Runs.lean ====
section
/-! SUPPORT. Runs of the row sequencer as a whole: what every run keeps, how the positions left after a wait continue the
command's positions, what arriving answers change, and how a list of answers splits. -/

namespace Sys2Proof.Machine

/-! ### What a run keeps -/

/-- From `s` a run has come to `t`: it has consumed answers and issued requests, one for one, and written only `PHASE`,
`CACHE` and `LIFE` besides. -/
structure Ran (s t : State) : Prop where
  cfg : t.cfg = s.cfg
  bright : t.bright = s.bright
  fb : t.fb = s.fb
  cap : t.fbCapBytes = s.fbCapBytes
  inputs : t.inputs = s.inputs
  responses : t.responses = s.responses
  record : ∃ n es, t.answers = s.answers.drop n ∧ t.trace = s.trace ++ es ∧ es.map Prod.snd = s.answers.take n

/-- Wherever a run stands, it has come there so. -/
theorem runSteps_ran (cmd : SeqCmd) (ps : List Pos) (s : State) : RunCase (Ran s) cmd ps (runSteps cmd ps s) := by
  apply runSteps_cases
  · rintro t p ⟨h1, h2, h3, h4, h5, h6, h7⟩; exact ⟨h1, h2, h3, h4, h5, h6, h7⟩
  · rintro t ⟨h1, h2, h3, h4, h5, h6, h7⟩; exact ⟨h1, h2, h3, h4, h5, h6, h7⟩
  · rintro t ⟨h1, h2, h3, h4, h5, h6, h7⟩; exact ⟨h1, h2, h3, h4, h5, h6, h7⟩
  · rintro t j r rest ⟨h1, h2, h3, h4, h5, h6, n, es, ha, ht, he⟩ hr hans
    rw [hans] at ha
    refine ⟨h1, h2, h3, h4, h5, h6, n + 1, es ++ [(r, .ok)], ?_, ?_, ?_⟩
    · rw [← List.drop_drop, ← ha]; rfl
    · simp [ht]
    · rw [List.map_append, he, List.take_add, ← ha]; rfl
  · exact ⟨rfl, rfl, rfl, rfl, rfl, rfl, 0, [], by simp, by simp, by simp⟩

/-- A command's run ends as it answers. -/
theorem finish_next {o : Progress} {t : State} (h : finish o = .next t) :
    (∃ u, o = .done u ∧ t = respondOk u) ∨ o = .ended t := by
  cases o with
  | done u => cases h; exact .inl ⟨u, rfl, rfl⟩
  | ended u => cases h; exact .inr rfl
  | stopped r => cases h

/-! ### The positions of a command -/

/-- `SCAN` from its first position. -/
theorem scanSteps_eq (f : Profile) :
    passSteps f 0 = jobSteps f { cmd := .scan, pos := { k := 0, j := (passOrder f).headD .s1 } } := by cases f <;> decide

/-- `FLUSH` from its first position. -/
theorem flushSteps_eq (f : Profile) :
    flushSteps f = jobSteps f { cmd := .flush, pos := { k := 0, j := (passOrder f).headD .s1 } } := by cases f <;> decide

theorem jobSteps_head (f : Profile) (job : Job) : (jobSteps f job).head? = some job.pos := by
  obtain ⟨cmd, ⟨k, j⟩⟩ := job
  cases f <;> cases cmd <;> cases j <;> (revert k; decide)

theorem jobSteps_length (f : Profile) (job : Job) : (jobSteps f job).length ≤ 36 := by
  obtain ⟨cmd, ⟨k, j⟩⟩ := job
  cases f <;> cases cmd <;> cases j <;> (revert k; decide)

theorem jobSteps_drop (f : Profile) (job : Job) (i : Fin 36) :
    ∀ p, (jobSteps f job)[i.val]? = some p → (jobSteps f job).drop i.val = jobSteps f { cmd := job.cmd, pos := p } := by
  obtain ⟨cmd, ⟨k, j⟩⟩ := job
  have : ∀ p ∈ (jobSteps f ⟨cmd, ⟨k, j⟩⟩)[i.val]?,
      (jobSteps f ⟨cmd, ⟨k, j⟩⟩).drop i.val = jobSteps f { cmd := cmd, pos := p } := by
    cases f <;> cases cmd <;> cases j <;> (revert k i; decide)
  exact fun p hp => this p hp

/-- The positions from any one of a command's positions on are those of the command at that position (R30). -/
theorem jobSteps_suffix {f : Profile} {job : Job} {ps qs : List Pos} {p : Pos} (h : jobSteps f job = ps ++ p :: qs) :
    jobSteps f { cmd := job.cmd, pos := p } = p :: qs := by
  have hlen := jobSteps_length f job
  rw [h] at hlen
  simp only [List.length_append, List.length_cons] at hlen
  have := jobSteps_drop f job ⟨ps.length, by omega⟩ p (by simp [h])
  rw [← this, h]; simp

/-- Step 2b always follows step 2a (R137, R144). -/
theorem jobSteps_chain (f : Profile) (job : Job) :
    ((jobSteps f job).map Pos.j).IsChain (fun a b => b = .s2b → a = .s2a) := by
  obtain ⟨cmd, ⟨k, j⟩⟩ := job
  cases f <;> cases cmd <;> cases j <;> (revert k; decide)

/-- The pass index of `SCAN` is 0 (R30). -/
theorem jobSteps_scan (f : Profile) (j : Label) : ∀ p ∈ jobSteps f { cmd := .scan, pos := { k := 0, j := j } }, p.k = 0 := by
  cases f <;> cases j <;> decide

/-- A step that issues a request is neither 2a nor 5 (R145). -/
theorem label_of_request {s : State} {j : Label} {r : Request} (h : stepRequest s j = some r) : j ≠ .s2a ∧ j ≠ .s5 := by
  constructor <;> rintro rfl <;> cases h

/-! ### Answers that arrive later -/

theorem stepRequest_offer (s : State) (more : List Answer) (j : Label) : stepRequest (s.offer more) j = stepRequest s j := by
  cases j <;> rfl

/-- A step that was passed is passed with more answers there. -/
theorem runLabel_offer {j : Label} {s t : State} (more : List Answer) (h : runLabel j s = .done t) :
    runLabel j (s.offer more) = .done (t.offer more) := by
  have hreq : ∀ j, requestStep j s = .done t → requestStep j (s.offer more) = .done (t.offer more) := by
    intro j h
    unfold requestStep at *
    rw [stepRequest_offer]
    rcases hr : stepRequest s j with _ | r
    · rw [hr] at h; cases h
    · rw [hr] at h
      simp only [issue, emit] at *
      rcases ha : s.answers with _ | ⟨_ | _, rest⟩ <;> rw [ha] at h <;> cases h
      simp [State.offer, ha, State.withAnswers, State.traced]
  cases j with
  | s2a => simp only [runLabel, buildStep, buildCache_eq] at *; cases h; rfl
  | s5 => simp only [runLabel, advanceStep] at *; cases h; rfl
  | _ => simp only [runLabel] at *; exact hreq _ h

/-- A run that waits goes on, when more answers are there, from the position it waits at. -/
theorem runSteps_offer {cmd : SeqCmd} (more : List Answer) : ∀ (ps : List Pos) (s t : State) (job : Job),
    runSteps cmd ps s = .ended t → t.life = .busy job →
    ∃ qs p rs, ps = qs ++ p :: rs ∧ job = { cmd := cmd, pos := p } ∧ t.cfg = s.cfg ∧
      runSteps cmd ps (s.offer more) = runSteps cmd (p :: rs) (t.offer more)
  | [], s, t, job, h, _ => by cases h
  | p :: ps, s, t, job, h, hl => by
    rw [runSteps_cons] at h
    rw [runSteps_cons]
    have hat : (s.offer more).at cmd p = (s.at cmd p).offer more := rfl
    have hc := runLabel_cases p.j (s.at cmd p)
    rcases hx : runLabel p.j (s.at cmd p) with u | u | r <;> rw [hx] at h hc
    · obtain ⟨qs, q, rs, rfl, hj, hcfg, hrun⟩ := runSteps_offer more ps u t job h hl
      refine ⟨p :: qs, q, rs, rfl, hj, ?_, ?_⟩
      · rw [hcfg]; cases hc <;> rfl
      · rw [hat, runLabel_offer more hx]; exact hrun
    · simp only [Progress.ended.injEq] at h
      subst h
      cases hc with
      | failed r rest hr ha => cases hl
      | waits r hr ha =>
        refine ⟨[], p, ps, rfl, ?_, rfl, ?_⟩
        · cases hl; rfl
        · rw [hat, runSteps_cons]; rfl
    · cases h

/-! ### How a list of answers splits -/

/-- The first `n` answers hold a `FAIL`, or end before, or are all `OK`. -/
theorem answers_split (n : Nat) (as : List Answer) :
    (∃ m rest, m < n ∧ as = List.replicate m .ok ++ .fail :: rest) ∨ (∃ m, m < n ∧ as = List.replicate m .ok) ∨
      ∃ rest, as = List.replicate n .ok ++ rest := by
  induction n generalizing as with
  | zero => exact .inr (.inr ⟨as, rfl⟩)
  | succ n ih =>
    rcases as with _ | ⟨_ | _, as⟩
    · exact .inr (.inl ⟨0, by omega, rfl⟩)
    · rcases ih as with ⟨m, rest, hm, rfl⟩ | ⟨m, hm, rfl⟩ | ⟨rest, rfl⟩
      · exact .inl ⟨m + 1, rest, by omega, rfl⟩
      · exact .inr (.inl ⟨m + 1, by omega, rfl⟩)
      · exact .inr (.inr ⟨rest, rfl⟩)
    · exact .inl ⟨0, as, by omega, rfl⟩

/-! ### The passes of a flush -/

/-- The positions of a flush around pass `k` (R147). -/
theorem flushSteps_split (f : Profile) (k : Fin 4) : ∃ ks ls : List (Fin 4), ks.length = k.val ∧
    flushSteps f = ks.flatMap (passSteps f) ++ (passSteps f k ++ ls.flatMap (passSteps f)) := by
  refine ⟨([0, 1, 2, 3] : List (Fin 4)).take k.val, ([0, 1, 2, 3] : List (Fin 4)).drop (k.val + 1), ?_, ?_⟩
  · revert k; decide
  · cases f <;> revert k <;> decide

/-- The requests of a flush up to request `n` of pass `k`, and that request. -/
theorem flushRequests_at {s : State} {v : BitVec 16} {k n : Nat} (hk : k < 4) (hn : n < 7) :
    (flushRequests s v).take (7 * k + n) =
      passesRequests s v k ++ (passRequests s (s.phase + BitVec.ofNat 2 k) v).take n ∧
    (flushRequests s v)[7 * k + n]? = (passRequests s (s.phase + BitVec.ofNat 2 k) v)[n]? := by
  have e : ∃ tl, flushRequests s v =
      passesRequests s v k ++ (passRequests s (s.phase + BitVec.ofNat 2 k) v ++ tl) := by
    rw [flushRequests_eq]
    refine ⟨(List.range (3 - k)).flatMap fun i => passRequests s (s.phase + BitVec.ofNat 2 (k + 1 + i)) v, ?_⟩
    interval_cases k <;> simp [passesRequests, List.range_succ]
  obtain ⟨tl, e⟩ := e
  rw [e]
  have hlen := passesRequests_length s v k
  have h7 := passRequests_length s (s.phase + BitVec.ofNat 2 k) v
  constructor
  · rw [List.take_append, hlen, List.take_of_length_le (by omega), show 7 * k + n - 7 * k = n by omega,
      List.take_append_of_le_length (by omega)]
  · rw [List.getElem?_append_right (by omega), hlen, show 7 * k + n - 7 * k = n by omega,
      List.getElem?_append_left (by omega)]

end Sys2Proof.Machine
end

