-- ==== Sys2Proof/Laws/Step.lean ====
section
/-! SUPPORT. What one step of the block can do, said once: it idles, runs a command, answers an `ILLEGAL` word, takes a
reset, goes on with a running command, or goes on with a reset. -/

namespace Sys2Proof.Machine

/-- The six things a step can do. -/
inductive StepDoes (s : State) : Host.Outcome State Fault Refusal → Prop where
  /-- Nothing from the host (R193). -/
  | idle (h : s.life = .ready ∨ s.life = .dead) (hi : s.inputs = []) : StepDoes s (.next s)
  /-- The next input is a command word (R71). -/
  | command (w : Word64) (i : Instr) (rest : List HostInput) (h : s.life = .ready ∨ s.life = .dead)
      (hi : s.inputs = .command w :: rest) (hd : decode w = .command i) : StepDoes s (exec i (s.withInputs rest))
  /-- The next input is an `ILLEGAL` word (R77). -/
  | illegal (w : Word64) (why : IllegalCause) (rest : List HostInput) (h : s.life = .ready ∨ s.life = .dead)
      (hi : s.inputs = .command w :: rest) (hd : decode w = .illegal why) : StepDoes s (execIllegal (s.withInputs rest))
  /-- The next input is a reset (R201). -/
  | reset (w : Word64) (rest : List HostInput) (h : s.life = .ready ∨ s.life = .dead)
      (hi : s.inputs = .reset w :: rest) : StepDoes s (.next (applyReset w (s.withInputs rest)))
  /-- A command is running (R30). -/
  | resumed (job : Job) (h : s.life = .busy job) : StepDoes s (resume job s)
  /-- A reset waits for its construction answer (R204). -/
  | finishing (h : s.life = .resetting) : StepDoes s (.next (finishReset s))

theorem takeInput_does {s : State} (h : s.life = .ready ∨ s.life = .dead) : StepDoes s (takeInput s) := by
  unfold takeInput
  split
  · exact .idle h ‹_›
  · rename_i w rest hi
    unfold acceptWord
    split
    · exact .command w _ rest h hi ‹_›
    · exact .illegal w _ rest h hi ‹_›
  · exact .reset _ _ h ‹_›

/-- A step does one of the six things of `StepDoes`. -/
theorem step_does (s : State) : StepDoes s (step s) := by
  unfold step
  split
  · exact .resumed _ ‹_›
  · exact .finishing ‹_›
  · exact takeInput_does (.inl ‹_›)
  · exact takeInput_does (.inr ‹_›)

/-- A command that answers a next state leaves it to be one of three shapes: the framebuffer commands answer at once, the
sequencer commands end their run of steps. -/
theorem exec_shape {i : Instr} {s t : State} (h : exec i s = .next t) : s.life = .ready ∧ match i with
    | .setpx x y on => t = { s with
        fb := drawPoint s.cfg s.fb (x, y, on)
        responses := s.responses ++ [0x0000000000000000#64] }
    | .scan => finish (runSteps .scan (passSteps s.cfg.profile 0) s) = .next t
    | .flush => finish (runSteps .flush (flushSteps s.cfg.profile) s) = .next t
    | .qdim => t = { s with responses := s.responses ++
        [BitVec.ofNat 64 (displayHeight s.cfg * 2 ^ 16 + displayWidth s.cfg)] } := by
  have hr := ready_of_exec h
  refine ⟨hr, ?_⟩
  cases i with
  | setpx x y on =>
    rcases hm : mapPixel s.cfg x y with _ | ⟨a, k⟩
    · rw [exec_setpx_outside hr hm] at h; cases h; simp [drawPoint, hm]
    · rw [exec_setpx_inside hr hm] at h; cases h; simp [drawPoint, hm, pixelByte]
  | scan => rwa [exec_scan_ready hr] at h
  | flush => rwa [exec_flush_ready hr] at h
  | qdim => rw [exec_qdim hr] at h; cases h; rfl

end Sys2Proof.Machine
end

