-- ==== Sys2Proof/Tests/Slice0.lean ====
section
/-! SUPPORT. Tests from the vectors of `95_test_vectors.md`, and a witness that meets the hypotheses of each statement of
Certificates/Slice0/Obligations.lean that has any. -/

namespace Sys2Proof.Tests

open Sys2Proof.Machine

/-! ### Small states -/

/-- A configuration `G(px, py)` of the test vectors, with `B0 = 0x8000`. -/
def grid (px : BitVec 10) (py : BitVec 11) (o : RowOrder) (g : Strategy) (f : Profile) : Cfg :=
  { px := px, py := py, order := o, strategy := g, profile := f, mode := .blocking, b0 := 0x8000 }

/-- A `READY` block of a configuration, dark, with an empty record and the given answers to come. -/
def block (c : Cfg) (p : BitVec 2) (as : List Answer) : State :=
  { cfg := c, phase := p, bright := resetBright c, fb := [], cache := List.replicate (cacheBytes c) 0, life := .ready,
    fbCapBytes := 64 * 1023 * 2047, inputs := [], answers := as, trace := [], responses := [] }

/-- `G(1,1)` with `DUTY`. -/
def duty11 (p : BitVec 2) (as : List Answer) : State := block (grid 1 1 .asc .duty .standard) p as

/-- `G(1,1)` with `ENABLE`. -/
def enable11 (f : Profile) (p : BitVec 2) (as : List Answer) : State := block (grid 1 1 .asc .enable f) p as

/-- `n` answers `OK`. -/
def oks (n : Nat) : List Answer := List.replicate n .ok

/-- `n` answers `OK`, then `FAIL`. -/
def failAfter (n : Nat) : List Answer := List.replicate n .ok ++ .fail :: []

/-- The next state of an outcome; the state itself where there is none. -/
def nextOr (s : State) : Host.Outcome State Fault Refusal → State
  | .next t => t
  | .fault _ => s
  | .refused _ => s

/-- The state after a command. -/
def after (i : Instr) (s : State) : State := nextOr s (exec i s)

/-- The outcome is a next state. -/
def isNext : Host.Outcome State Fault Refusal → Bool
  | .next _ => true
  | .fault _ => false
  | .refused _ => false

theorem exec_eq_after {i : Instr} {s : State} (h : isNext (exec i s) = true) : exec i s = .next (after i s) := by
  unfold after nextOr
  split <;> simp_all [isNext]

/-- The refusal of an outcome, if it is one. -/
def refusal? : Host.Outcome State Fault Refusal → Option Refusal
  | .next _ => none
  | .fault _ => none
  | .refused r => some r

/-- The framebuffer byte after a list of commands. -/
def byteAfter (s : State) (is : List Instr) (a : Nat) : Byte := Memory.read (is.foldl (fun u i => after i u) s).fb a

/-- What a reset makes of a fresh block: requests, last response, and whether it is `READY` or `DEAD`. -/
def resetWith (w : Word64) (as : List Answer) : State := applyReset w (duty11 0 as)

/-! ### WellFormed: the bounds of the coordinate fields (R74: -32768 to 32767), each side of each field -/

theorem test_wf_accepts_bounds :
    (Instr.setpx (-32768) 32767 true).WellFormed ∧ (Instr.setpx 32767 (-32768) false).WellFormed ∧
    (Instr.setpx (-32768) 32767 true).wellFormed = true := by decide

theorem test_wf_refuses_x_high : ¬ (Instr.setpx 32768 0 true).WellFormed ∧ (Instr.setpx 32768 0 true).wellFormed = false := by
  decide

theorem test_wf_refuses_x_low : ¬ (Instr.setpx (-32769) 0 true).WellFormed ∧ (Instr.setpx (-32769) 0 true).wellFormed = false := by
  decide

theorem test_wf_refuses_y_high : ¬ (Instr.setpx 0 32768 true).WellFormed ∧ (Instr.setpx 0 32768 true).wellFormed = false := by
  decide

theorem test_wf_refuses_y_low : ¬ (Instr.setpx 0 (-32769) true).WellFormed ∧ (Instr.setpx 0 (-32769) true).wellFormed = false := by
  decide

/-! ### Decode: vectors of section 2.1, and `SETPX 5, 13, 1` written out bit by bit from R73 -/

theorem test_decode_setpx_bits :
    decode 0b0001_000000000000000000000000000_1_0000000000001101_0000000000000101#64 = .command (.setpx 5 13 true) := by
  decide

theorem test_decode_setpx :
    decode 0x10000001FFFE0005#64 = .command (.setpx 5 (-2) true) ∧
    decode 0x1000000180008000#64 = .command (.setpx (-32768) (-32768) true) ∧
    decode 0x1000000000007FFF#64 = .command (.setpx 32767 0 false) := by decide

theorem test_decode_format_z :
    decode 0b0010_000000000000000000000000000000000000000000000000000000000000#64 = .command .scan ∧
    decode 0b0011_000000000000000000000000000000000000000000000000000000000000#64 = .command .flush ∧
    decode 0b0100_000000000000000000000000000000000000000000000000000000000000#64 = .command .qdim := by decide

theorem test_decode_illegal :
    (decode 0x0000000000000000#64).command? = none ∧ (decode 0x5000000000000000#64).command? = none ∧
    (decode 0xF000000000000000#64).command? = none ∧ (decode 0x1000000200000000#64).command? = none ∧
    (decode 0x1800000000000000#64).command? = none ∧ (decode 0x2000000000000001#64).command? = none ∧
    (decode 0x4800000000000000#64).command? = none ∧ (decode 0x3000000100000000#64).command? = none := by decide

/-- R77: the table's word of a row runs as the first command after reset; program P4's illegal word is answered. -/
theorem test_step_answers :
    (nextOr .reset (step (State.reset.withFetchWord 64 0x4000000000000000))).responses =
      [0x0000000000000000#64, 0x0000000000100020#64] ∧
    (nextOr .reset (step (State.reset.withFetchWord 64 0x2000000000000001))).responses =
      [0x0000000000000000#64, 0xF000000000000000#64] := by decide

/-- Program P1's fourth word and a `DRAW` (R83, R84), with a comment. -/
theorem test_assemble :
    assembleLine "FLUSH ; all rows".toList = some [0x3000000000000000#64] ∧
    assembleLine "SETPX -1, 3, 0".toList = some [0x100000000003FFFF#64] ∧
    assembleLine "DRAW (2,0,1), (40000,0,1), (3,0,1)".toList = some [0x1000000100000002#64, 0x1000000100000003#64] ∧
    assembleLine "PIXON 31, 0".toList = some [0x100000010000001F#64] ∧
    assembleLine "SETPX 0, 0, 2".toList = none ∧ assembleLine "SETPX 32768, 0, 1".toList = none := by decide

/-! ### The mapper: vectors of section 2.2 -/

theorem test_map :
    mapPixel (grid 1 1 .asc .duty .standard) 5 13 = some (52, 0x04#8) ∧
    mapPixel (grid 2 1 .asc .duty .standard) 40 5 = some (45, 0x80#8) ∧
    mapPixel (grid 1 2 .asc .duty .standard) 3 20 = some (36, 0x10#8) ∧
    mapPixel (grid 2 2 .asc .duty .standard) 40 21 = some (93, 0x80#8) ∧
    mapPixel (grid 2 2 .asc .duty .standard) 63 31 = some (255, 0x01#8) ∧
    mapPixel (grid 3 1 .asc .duty .standard) 64 9 = some (116, 0x80#8) := by decide

theorem test_unmap : unmapPixel (grid 2 2 .asc .duty .standard) 93 7 = (40, 21) := by decide

/-! ### SETPX and QDIM: vectors of sections 2.3 and 2.4 -/

/-- T-SET-1, T-SET-3, T-SET-6, T-SET-13. -/
theorem test_setpx_bytes :
    byteAfter (duty11 0 []) [.setpx 0 0 true] 0 = 0x7F#8 ∧
    byteAfter (duty11 0 []) [.setpx 0 0 true, .setpx 0 0 false] 0 = 0xFF#8 ∧
    byteAfter (duty11 0 []) [.setpx 31 0 true, .setpx 30 0 true] 3 = 0xFC#8 ∧
    byteAfter (duty11 0 []) [.setpx 2 0 true, .setpx 2 0 false, .setpx 3 0 true] 0 = 0xEF#8 := by decide

/-- T-SET-7 to T-SET-10: clipped. -/
theorem test_setpx_clips :
    ∀ p ∈ [((32 : Int), (0 : Int)), (0, 16), (-1, 3), (0, -1)],
      (after (.setpx p.1 p.2 true) (duty11 0 [])).fb = [] ∧
      (after (.setpx p.1 p.2 true) (duty11 0 [])).responses = [0x0000000000000000#64] := by decide

theorem test_qdim :
    (after .qdim (block (grid 1 2 .asc .duty .standard) 0 [])).responses = [0x0000000000200020#64] ∧
    (after .qdim (duty11 0 [])).responses = [0x0000000000100020#64] ∧
    dimensionWord (displayHeight (grid 1023 2047 .asc .duty .standard)) (displayWidth (grid 1023 2047 .asc .duty .standard)) =
      0x000000007FF07FE0#64 := by decide

/-! ### BUILD: vectors of section 2.5 -/

/-- V-B1's framebuffer: `FB[a] = a`. -/
def ramp (o : RowOrder) : State :=
  (block (grid 1 1 o .duty .standard) 0 []).withFb ((List.range 64).map fun a => (a, BitVec.ofNat 8 a))

theorem test_build_ramp_asc :
    buildCache (ramp .asc) 1 = some [0x04#8, 0x14#8, 0x24#8, 0x34#8, 0x05#8, 0x15#8, 0x25#8, 0x35#8, 0x06#8, 0x16#8, 0x26#8,
      0x36#8, 0x07#8, 0x17#8, 0x27#8, 0x37#8] := by decide

theorem test_build_ramp_desc :
    buildCache (ramp .desc) 3 = some [0x3C#8, 0x2C#8, 0x1C#8, 0x0C#8, 0x3D#8, 0x2D#8, 0x1D#8, 0x0D#8, 0x3E#8, 0x2E#8, 0x1E#8,
      0x0E#8, 0x3F#8, 0x2F#8, 0x1F#8, 0x0F#8] := by decide

/-! ### SCAN and FLUSH: vectors of sections 2.6 and 2.7 -/

/-- The response, `PHASE` and the number of requests of V-S2's row `n + 1`. -/
def scanRow (n : Nat) : List Word64 × BitVec 2 × Nat :=
  let t := after .scan (duty11 2 (failAfter n))
  (t.responses, t.phase, t.trace.length)

/-- V-S1, and V-S2's rows 1, 2, 6 and 7. -/
theorem test_scan_standard :
    (after .scan (duty11 2 (oks 7))).trace.map Prod.fst =
      [.duty 0, .bus (List.replicate 16 0xFF#8), .line .lat .high, .line .lat .low, .line .a .low, .line .b .high,
        .duty 0x8000] ∧
    (after .scan (duty11 2 (oks 7))).phase = 3 ∧ (after .scan (duty11 2 (oks 7))).responses = [0x0000000000000000#64] ∧
    scanRow 0 = ([0x2000000000000000#64], 2, 1) ∧ scanRow 1 = ([0x1000000000000000#64], 2, 2) ∧
    scanRow 5 = ([0x3000000000000000#64], 2, 6) ∧ scanRow 6 = ([0x2000000000000000#64], 3, 7) := by decide

/-- V-S4, complete, and its row 2. -/
theorem test_scan_transmit_first :
    (after .scan (enable11 .transmitFirst 2 (oks 7))).trace.map Prod.fst =
      [.bus (List.replicate 16 0xFF#8), .line .en .low, .line .lat .low, .line .lat .high, .line .a .low, .line .b .high,
        .line .en .high] ∧
    (after .scan (enable11 .transmitFirst 2 [.ok, .fail])).responses = [0x3000000000000000#64] ∧
    (after .scan (enable11 .transmitFirst 2 [.ok, .fail])).phase = 2 := by decide

/-- V-F3: `FAIL` on the `BUS` of pass 2. -/
theorem test_flush_failure :
    (after .flush (duty11 0 (failAfter 8))).responses = [0x1000000000000000#64] ∧
    (after .flush (duty11 0 (failAfter 8))).phase = 1 ∧
    (after .flush (duty11 0 (failAfter 8))).trace.length = 9 := by decide

/-- V-F2: from `PHASE = 3`, line `A` and line `B` of the first two passes are those of the phases 3 and 0. -/
theorem test_flush_phases :
    (after .flush (duty11 3 (oks 28))).trace[4]? = some (Request.line .a .high, .ok) ∧
    (after .flush (duty11 3 (oks 28))).trace[5]? = some (Request.line .b .high, .ok) ∧
    (after .flush (duty11 3 (oks 28))).trace[11]? = some (Request.line .a .low, .ok) ∧
    (after .flush (duty11 3 (oks 28))).phase = 3 := by decide

/-! ### Reset: the table of section 2.9 -/

theorem test_reset_accepts :
    (resetWith 0x0000800000000401#64 [.ok]).trace = [(.duty 0x8000, .ok)] ∧
    (resetWith 0x0000800000000401#64 [.ok]).life = .ready ∧
    (resetWith 0x0000005500400401#64 []).life = .ready ∧ (resetWith 0x0000005500400401#64 []).bright = none ∧
    (resetWith 0x0000000700000401#64 [.fail]).life = .dead ∧
    (resetWith 0x0000000700000401#64 [.fail]).responses = [0x2000000000000000#64] := by decide

/-- The block rejected the configuration: `DEAD`, `CONFIG_ERROR`, no request. -/
def rejected (w : Word64) : Bool :=
  let t := resetWith w [.ok]
  t.life == .dead && t.responses == [0x4000000000000000#64] && t.trace == []

theorem test_reset_rejects :
    rejected 0x0000000000000400#64 = true ∧ rejected 0x0000000000000001#64 = true ∧
    rejected 0x0000000000800401#64 = true ∧ rejected 0x0000000002000401#64 = true ∧
    rejected 0x0001000000000401#64 = true ∧ rejected 0x0000800000000401#64 = false := by decide

/-! ### Witnesses: the hypotheses of each statement met together -/

theorem witness_DecodeOfEncodeIsTheCommand : (Instr.setpx (-32768) 32767 true).WellFormed := by decide

theorem witness_EncodeOfDecodeIsTheWord : decode 0x1000000180007FFF#64 = .command (.setpx 32767 (-32768) true) := by decide

/-- One word of each clause of R77, at the edges of its range, in a block that takes it. -/
theorem witness_IllegalWordIsAnsweredOnly :
    decode 0x0FFFFFFFFFFFFFFF#64 = .illegal (.reservedOp 0) ∧ decode 0xFFFFFFFFFFFFFFFF#64 = .illegal (.reservedOp 15) ∧
    decode 0x1000000200000000#64 = .illegal .reservedBits ∧ decode 0x1800000000000000#64 = .illegal .reservedBits ∧
    decode 0x2000000000000001#64 = .illegal (.operandBits 2) ∧ decode 0x3800000000000000#64 = .illegal (.operandBits 3) ∧
    decode 0x4000000000000001#64 = .illegal (.operandBits 4) ∧
    decode 0x5000000000000000#64 = .illegal (.reservedOp 5) ∧
    ((duty11 0 []).withInputs [.command 0x5000000000000000#64]).life = .ready := by decide

theorem witness_StepRunsTheDecodedCommand :
    ((duty11 0 []).withInputs [.command 0x2000000000000000#64]).life = .ready ∧
    ((duty11 0 []).withInputs [.command 0x2000000000000000#64]).inputs = .command 0x2000000000000000#64 :: [] ∧
    decode 0x2000000000000000#64 = .command .scan := by decide

theorem witness_PlacedWordRunsNext : decode 0x4000000000000000#64 = .command .qdim := by decide

theorem witness_IdleBlockStays :
    (duty11 0 []).life = .ready ∧ (duty11 0 []).inputs = [] ∧ ((duty11 0 []).withLife .dead).life = .dead := by decide

theorem witness_DeadBlockRefusesCommands :
    (((duty11 0 []).withLife .dead).withInputs [.command 0#64]).life = .dead ∧
    refusal? (step (((duty11 0 []).withLife .dead).withInputs [.command 0#64])) = some .commandToDead := by decide

/-- A `SCAN` that waits for the answer of its `BUS` request. -/
def waiting : State := after .scan (duty11 0 (oks 1))

theorem witness_BusyBlockTakesNoInput :
    waiting.life = .busy { cmd := .scan, pos := { k := 0, j := .s2b } } ∧ waiting.responses = [] ∧
    refusal? (exec .qdim waiting) = some .commandWhileBusy := by decide

theorem witness_SetpxWritesItsPixel :
    (duty11 0 []).life = .ready ∧ 31 < (duty11 0 []).cfg.px.toNat * 32 ∧ 15 < (duty11 0 []).cfg.py.toNat * 16 := by decide

/-- Each side of each bound. -/
theorem witness_SetpxClipsOutOfBounds :
    (duty11 0 []).life = .ready ∧ ∀ p ∈ [((32 : Int), (0 : Int)), (-1, 0), (0, 16), (0, -1)],
      ¬ (0 ≤ p.1 ∧ p.1 < ((duty11 0 []).cfg.px.toNat * 32 : Nat) ∧ 0 ≤ p.2 ∧ p.2 < ((duty11 0 []).cfg.py.toNat * 16 : Nat)) := by
  decide

theorem witness_SetpxAndQdimNeverFail :
    (duty11 0 []).life = .ready ∧ (∃ x y on, Instr.setpx 32 0 true = .setpx x y on) ∧ Instr.qdim = .qdim :=
  ⟨rfl, ⟨32, 0, true, rfl⟩, rfl⟩

theorem witness_SetpxChangesOnlyItsPixel :
    (duty11 0 []).life = .ready ∧ Memory.wf (duty11 0 []).fb ∧ InBounds (duty11 0 []).cfg 31 15 ∧
    ((30 : Int), (15 : Int)) ≠ (31, 15) := by decide

theorem witness_SetpxRoundTrip :
    (duty11 0 []).life = .ready ∧ Memory.wf (duty11 0 []).fb ∧ pixelLit (duty11 0 []) 31 15 = some (!true) ∧
    pixelLit (duty11 0 []) 0 0 = some false ∧ pixelLit (after (.setpx 0 0 true) (duty11 0 [])) 0 0 = some (!false) := by
  decide

theorem witness_DrawAppliesItsElements :
    (duty11 0 []).life = .ready ∧ expandLine (.draw [(2, 0, true), (40000, 0, true)]) = [.setpx 2 0 true] := by decide

theorem witness_QdimAnswersTheDimensions : (enable11 .standard 0 []).life = .ready := by decide

theorem witness_MapIsABijection :
    InBounds (grid 2 2 .asc .duty .standard) 63 31 ∧ 255 < fbBytes (grid 2 2 .asc .duty .standard) ∧
    mapPixel (grid 2 2 .asc .duty .standard) 63 31 = some (255, 1#8 <<< 0) := by decide

theorem witness_MapInverseFormula :
    93 < fbBytes (grid 2 2 .asc .duty .standard) ∧ 7 < 8 ∧
    mapPixel (grid 2 2 .asc .duty .standard) 40 21 = some (93, 1#8 <<< 7) := by decide

theorem witness_MapRange :
    mapPixel (grid 1 1 .asc .duty .standard) 31 15 = some (63, 0x01#8) ∧ (grid 1 1 .asc .duty .standard).px ≠ 0 ∧
    (grid 1 1 .asc .duty .standard).py ≠ 0 := by decide

theorem witness_MapFitsThirtyTwoBits :
    32735 < displayWidth (grid 1023 2047 .asc .duty .standard) ∧ 32751 < displayHeight (grid 1023 2047 .asc .duty .standard) := by
  decide

theorem witness_BuildCopiesTheRowGroup : 3 < rowStride (ramp .desc).cfg ∧ 3 < 4 := by decide

theorem witness_BuildPanelLayout :
    3 < panelCount (grid 2 2 .asc .duty .standard) ∧ 3 < 4 ∧ 7 < 8 := by decide

theorem witness_BuildOfUniformFramebuffer :
    ∀ a, a < fbBytes (duty11 0 []).cfg → Memory.read (duty11 0 []).fb a = 0xFF#8 := fun _ _ => rfl

theorem witness_BuildCarriesNoState :
    (duty11 0 []).cfg.order = (enable11 .standard 1 (oks 2)).cfg.order ∧
    rowStride (duty11 0 []).cfg = rowStride (enable11 .standard 1 (oks 2)).cfg ∧
    ∀ a, a < fbBytes (duty11 0 []).cfg → Memory.read (duty11 0 []).fb a = Memory.read (enable11 .standard 1 (oks 2)).fb a :=
  ⟨rfl, rfl, fun _ _ => rfl⟩

theorem witness_DescReversesEachGroup : 3 < rowStride (grid 1 1 .asc .duty .standard) ∧ 3 < 4 := by decide

theorem witness_ScanCompletesAPass :
    (duty11 2 (oks 8)).life = .ready ∧ BrightIs (duty11 2 (oks 8)) 0x8000 ∧
    (duty11 2 (oks 8)).answers = List.replicate 7 .ok ++ [.ok] := by decide

/-- The first and the last request, with both strategies. -/
theorem witness_ScanAbortsAtAFailure :
    (duty11 2 (failAfter 0)).life = .ready ∧ BrightIs (duty11 2 (failAfter 0)) 0x8000 ∧
    (duty11 2 (failAfter 0)).answers = List.replicate 0 Answer.ok ++ Answer.fail :: [] ∧
    (passRequests (duty11 2 (failAfter 0)) 2 0x8000)[0]? = some (Request.duty 0) ∧
    BrightIs (enable11 .transmitFirst 2 (failAfter 6)) 0 ∧
    (enable11 .transmitFirst 2 (failAfter 6)).answers = List.replicate 6 Answer.ok ++ Answer.fail :: [] ∧
    (passRequests (enable11 .transmitFirst 2 (failAfter 6)) 2 0)[6]? = some (Request.line .en .high) := by decide

theorem witness_ScanWaitsForAnAnswer :
    (duty11 2 (oks 6)).life = .ready ∧ BrightIs (duty11 2 (oks 6)) 0x8000 ∧
    (duty11 2 (oks 6)).answers = List.replicate 6 .ok ∧
    (passRequests (duty11 2 (oks 6)) 2 0x8000)[6]? = some (Request.duty 0x8000) := by decide

theorem witness_FlushCompletesFourPasses :
    (duty11 3 (oks 28)).life = .ready ∧ BrightIs (duty11 3 (oks 28)) 0x8000 ∧
    (duty11 3 (oks 28)).answers = List.replicate 28 .ok ++ [] := by decide

/-- The first request of the flush and the last. -/
theorem witness_FlushAbortsAtAFailure :
    BrightIs (duty11 0 (failAfter 0)) 0x8000 ∧ (duty11 0 (failAfter 0)).answers = List.replicate (7 * 0 + 0) Answer.ok ++ Answer.fail :: [] ∧
    (flushRequests (duty11 0 (failAfter 0)) 0x8000)[7 * 0 + 0]? = some (Request.duty 0) ∧
    (duty11 0 (failAfter 27)).life = .ready ∧ BrightIs (duty11 0 (failAfter 27)) 0x8000 ∧
    (duty11 0 (failAfter 27)).answers = List.replicate (7 * 3 + 6) Answer.ok ++ Answer.fail :: [] ∧
    (flushRequests (duty11 0 (failAfter 27)) 0x8000)[7 * 3 + 6]? = some (Request.duty 0x8000) := by decide

theorem witness_FlushWaitsForAnAnswer :
    (duty11 0 (oks 9)).life = .ready ∧ BrightIs (duty11 0 (oks 9)) 0x8000 ∧
    (duty11 0 (oks 9)).answers = List.replicate (7 * 1 + 2) .ok ∧
    (flushRequests (duty11 0 (oks 9)) 0x8000)[7 * 1 + 2]? = some (Request.line .lat .high) := by decide

/-- A step that begins a `SCAN` and leaves it waiting. -/
theorem witness_ResumedRunEqualsOneRun :
    step ((duty11 0 (oks 1)).withInputs [.command 0x2000000000000000#64]) = .next waiting ∧
    waiting.life = .busy { cmd := .scan, pos := { k := 0, j := .s2b } } :=
  ⟨Eq.trans (b := exec .scan (duty11 0 (oks 1))) rfl (exec_eq_after (by decide)), by decide⟩

theorem witness_BlankingInvariant :
    BrightIs (duty11 2 (oks 7)) 0x8000 ∧ exec .scan (duty11 2 (oks 7)) = .next (after .scan (duty11 2 (oks 7))) :=
  ⟨by decide, exec_eq_after (by decide)⟩

theorem witness_PortUsageByStrategy : step waiting = .next waiting := rfl

theorem witness_SequencerCommandFrame :
    exec .flush (duty11 0 (failAfter 8)) = .next (after .flush (duty11 0 (failAfter 8))) :=
  exec_eq_after (by decide)

theorem witness_OnlyResetWritesConfiguration : ¬ TakesReset waiting ∧ step waiting = .next waiting :=
  ⟨fun h => by rcases h.1 with h | h <;> simp [waiting, after, nextOr] at h <;> revert h <;> decide, rfl⟩

/-- A block about to take a `SETPX`. -/
def drawing : State := (duty11 0 []).withInputs [.command 0x1000000100000000#64]

theorem not_takesReset_drawing : ¬ TakesReset drawing := by
  rintro ⟨-, w, rest, h⟩; cases h

theorem witness_OnlySetpxWritesFramebuffer :
    ¬ TakesReset drawing ∧ step drawing = .next (after (.setpx 0 0 true) (drawing.withInputs [])) ∧
    (after (.setpx 0 0 true) (drawing.withInputs [])).fb ≠ drawing.fb := ⟨not_takesReset_drawing, rfl, by decide⟩

/-- The invariant of a dark, ready `G(1,1)` block with `DUTY`, as an example of a state that has it. -/
theorem inv_duty11 (p : BitVec 2) (as : List Answer) : Inv (duty11 p as) where
  fbCanonical := by simp [duty11, block, Memory.wf]
  fbInside := by simp [duty11, block]
  cacheFull := List.length_replicate
  brightIsB0 := rfl
  legal := fun _ => by
    show LegalCfg (64 * 1023 * 2047) (grid 1 1 .asc .duty .standard); decide
  resetDuty := fun _ => rfl
  waits := fun _ h => by cases h
  scanPass := fun _ h => by cases h
  transmits := fun _ h => by cases h

/-- A `G(1,1)` block in `SUSPENDABLE` mode whose first pass of a `FLUSH` waits for the answer to its `BUS` request. -/
def suspended : State :=
  { block { grid 1 1 .asc .enable .standard with mode := .suspendable } 0 [] with
    cache := List.replicate 16 0xFF
    life := .busy { cmd := .flush, pos := { k := 0, j := .s2b } } }

theorem inv_suspended : Inv suspended where
  fbCanonical := by simp [suspended, block, Memory.wf]
  fbInside := by simp [suspended, block]
  cacheFull := by decide
  brightIsB0 := rfl
  legal := fun _ => by
    show LegalCfg (64 * 1023 * 2047) { grid 1 1 .asc .enable .standard with mode := .suspendable }; decide
  resetDuty := fun h => by cases h
  waits := fun _ h => by cases h; decide
  scanPass := fun _ h hs => by cases h; cases hs
  transmits := fun _ _ _ => by decide

theorem witness_SuspensionOnlyAtTransmit :
    Inv suspended ∧ suspended.mayYield = true ∧ suspended.inFlight = some (.bus (List.replicate 16 0xFF)) :=
  ⟨inv_suspended, by decide, by decide⟩

/-- A step that issues row-address requests: the first of a `SCAN`. -/
theorem witness_PhaseCountsAddressedPasses :
    ¬ TakesReset ((duty11 2 (oks 7)).withInputs [.command 0x2000000000000000#64]) ∧ Inv (duty11 2 (oks 7)) ∧
    step ((duty11 2 (oks 7)).withInputs [.command 0x2000000000000000#64]) = .next (after .scan (duty11 2 (oks 7))) := by
  refine ⟨?_, inv_duty11 _ _, Eq.trans (b := exec .scan (duty11 2 (oks 7))) rfl (exec_eq_after (by decide))⟩
  rintro ⟨-, w, rest, h⟩; cases h

theorem witness_PhaseAfterManyScans :
    (duty11 3 (oks 14)).life = .ready ∧ BrightIs (duty11 3 (oks 14)) 0x8000 ∧
    (duty11 3 (oks 14)).answers = List.replicate (7 * 2) .ok ++ [] := by decide

theorem witness_FlushResynchronises :
    exec .flush (duty11 1 (oks 28)) = .next (after .flush (duty11 1 (oks 28))) ∧
    (after .flush (duty11 1 (oks 28))).responses = (duty11 1 (oks 28)).responses ++ [0x0000000000000000#64] :=
  ⟨exec_eq_after (by decide), by decide⟩

theorem witness_StrategyChangesOnlyBrightness :
    (duty11 2 (oks 7)).cfg.profile = .standard ∧ (duty11 2 (oks 7)).cfg.strategy = .duty ∧
    (duty11 2 (oks 7)).bright = some 0x8000 ∧ exec .scan (duty11 2 (oks 7)) = .next (after .scan (duty11 2 (oks 7))) :=
  ⟨rfl, rfl, rfl, exec_eq_after (by decide)⟩

theorem witness_DutyIsZeroOrB0 :
    Inv (duty11 2 (oks 7)) ∧ exec .scan (duty11 2 (oks 7)) = .next (after .scan (duty11 2 (oks 7))) :=
  ⟨inv_duty11 _ _, exec_eq_after (by decide)⟩

theorem witness_NoStepFaults : Inv suspended := inv_suspended

theorem witness_AnsweredCommandsEnd :
    Inv (duty11 0 (oks 28)) ∧ (duty11 0 (oks 28)).life = .ready ∧ CollabResponds 28 (duty11 0 (oks 28)) :=
  ⟨inv_duty11 _ _, rfl, by unfold CollabResponds; decide⟩

/-- The two states a reset is taken in. -/
theorem witness_resetTaken (w : Word64) :
    ((duty11 0 []).withInputs [.reset w]).life = .ready ∧ ((duty11 0 []).withInputs [.reset w]).inputs = .reset w :: [] ∧
    (((duty11 0 []).withLife .dead).withInputs [.reset w]).life = .dead := ⟨rfl, rfl, rfl⟩

/-- One word that breaks each condition of R202; the last is just above a capacity of 64 bytes. -/
theorem witness_ResetRejectsBadConfiguration :
    (0x0000000000000400#64).toNat % 2 ^ 10 = 0 ∧ (0x0000000000000001#64).toNat / 2 ^ 10 % 2 ^ 11 = 0 ∧
    (0x0000000002000401#64).toNat / 2 ^ 25 % 2 ^ 7 ≠ 0 ∧ (0x0001000000000401#64).toNat / 2 ^ 48 ≠ 0 ∧
    ((0x0000000000800401#64).toNat / 2 ^ 23 % 2 = 1 ∧ (0x0000000000800401#64).toNat / 2 ^ 22 % 2 = 0) ∧
    64 < 64 * ((0x0000000000000402#64).toNat % 2 ^ 10) * ((0x0000000000000402#64).toNat / 2 ^ 10 % 2 ^ 11) := by decide

/-- The smallest and the largest grid are accepted by a block of full capacity. -/
theorem witness_ResetSetsTheResetValues :
    CfgAccepted (duty11 0 []).fbCapBytes 0x0000800000000401#64 ∧ CfgAccepted (duty11 0 []).fbCapBytes 0x00000000001FFFFF#64 := by
  decide

theorem witness_ResetWithDutyConstructs :
    CfgAccepted (duty11 0 []).fbCapBytes 0x0000000700000401#64 ∧ (0x0000000700000401#64).toNat / 2 ^ 22 % 2 = 0 ∧
    (duty11 0 [.ok]).answers = .ok :: [] ∧ (duty11 0 [.fail]).answers = .fail :: [] ∧ (duty11 0 []).answers = [] := by decide

theorem witness_ResetWithEnableIssuesNothing :
    CfgAccepted (duty11 0 []).fbCapBytes 0x0000000000C00401#64 ∧ (0x0000000000C00401#64).toNat / 2 ^ 22 % 2 = 1 := by decide

theorem witness_ResumedResetEqualsOneReset :
    step ((duty11 0 []).withInputs [.reset 0x0000000700000401#64]) = .next (applyReset 0x0000000700000401#64 (duty11 0 [])) ∧
    (applyReset 0x0000000700000401#64 (duty11 0 [])).life = .resetting := ⟨rfl, by decide⟩

theorem witness_StepKeepsInv : Inv suspended ∧ step suspended = .next suspended := ⟨inv_suspended, rfl⟩

end Sys2Proof.Tests
end

/-! PROOFS. `MODE` (`00_scope.md` R12): `MODE` is a field that no operation of the block reads and that every one of them
carries along, so changing it commutes with running a command. -/

namespace Sys2Proof.Machine

/-! ### Outcomes with their next state changed -/

@[simp] theorem mapNext_refused (f : State → State) (r : Refusal) : mapNext f (.refused r) = .refused r := rfl

/-- A change of the state that the `OK` response carries along can be made before a command's run ends or after. -/
theorem finish_map {f : State → State} (hok : ∀ s, respondOk (f s) = f (respondOk s)) (o : Progress) :
    finish (o.map f) = mapNext f (finish o) := by
  cases o with
  | done s => exact congrArg Host.Outcome.next (hok s)
  | ended s => rfl
  | stopped r => rfl

/-! ### The state with another `MODE` -/

/-- The state with `MODE` changed (R12). -/
def State.withMode (s : State) (m : ExecMode) : State := { s with cfg := { s.cfg with mode := m } }

@[simp] theorem State.withMode_profile (s : State) (m : ExecMode) : (s.withMode m).cfg.profile = s.cfg.profile := rfl

/-- `MAP` does not read `MODE` (R91). -/
@[simp] theorem mapPixel_withMode (s : State) (m : ExecMode) (x y : Int) :
    mapPixel (s.withMode m).cfg x y = mapPixel s.cfg x y := rfl

/-- No step's request depends on `MODE` (R137, R144). -/
theorem stepRequest_withMode (s : State) (m : ExecMode) (j : Label) :
    stepRequest (s.withMode m) j = stepRequest s j := by cases j <;> rfl

/-- A run of steps does the same under another `MODE` (R152). -/
theorem runSteps_withMode (cmd : SeqCmd) (m : ExecMode) (ps : List Pos) (s : State) :
    runSteps cmd ps (s.withMode m) = (runSteps cmd ps s).map (State.withMode · m) :=
  runSteps_map (f := (State.withMode · m)) (hat := fun _ _ => rfl) (hreq := fun s j => stepRequest_withMode s m j)
    (hans := fun _ => rfl) (hbuild := fun _ => rfl) (hadv := fun _ => rfl) (htrace := fun _ _ _ _ => rfl)
    (hraise := fun _ _ => rfl) ps s

theorem finish_runSteps_withMode (cmd : SeqCmd) (m : ExecMode) (ps : List Pos) (s : State) :
    finish (runSteps cmd ps (s.withMode m)) = mapNext (State.withMode · m) (finish (runSteps cmd ps s)) := by
  rw [runSteps_withMode]
  exact finish_map (f := (State.withMode · m)) (fun _ => rfl) _

/-- A command taken by a ready block does the same under another `MODE`. -/
theorem exec_withMode_ready (i : Instr) {s : State} (h : s.life = .ready) (m : ExecMode) :
    exec i (s.withMode m) = mapNext (State.withMode · m) (exec i s) := by
  have h' : (s.withMode m).life = .ready := h
  cases i with
  | setpx x y on =>
    rcases hm : mapPixel s.cfg x y with _ | ⟨a, k⟩
    · rw [exec_setpx_outside h hm, exec_setpx_outside h' (by simpa using hm)]; rfl
    · rw [exec_setpx_inside h hm, exec_setpx_inside h' (by simpa using hm)]; rfl
  | scan => rw [exec_scan_ready h, exec_scan_ready h', State.withMode_profile, finish_runSteps_withMode]
  | flush => rw [exec_flush_ready h, exec_flush_ready h', State.withMode_profile, finish_runSteps_withMode]
  | qdim => rw [exec_qdim h, exec_qdim h']; rfl

/-- A command does the same under another `MODE`: a ready block runs it, any other refuses it by `LIFE` alone. -/
theorem exec_withMode (i : Instr) (s : State) (m : ExecMode) :
    exec i (s.withMode m) = mapNext (State.withMode · m) (exec i s) := by
  obtain ⟨hbusy, hdead, hreset⟩ := exec_refused i (s := s)
  obtain ⟨hbusy', hdead', hreset'⟩ := exec_refused i (s := s.withMode m)
  rcases hl : s.life with _ | job | _ | _
  · exact exec_withMode_ready i hl m
  · rw [hbusy job hl, hbusy' job hl, mapNext_refused]
  · rw [hdead hl, hdead' hl, mapNext_refused]
  · rw [hreset hl, hreset' hl, mapNext_refused]

/-- Settles O45: `MODE` commutes with every command, refused or run. -/
theorem modeChangesNothing : Obligations.ModeChangesNothing := by
  unfold Obligations.ModeChangesNothing
  exact fun s i m => exec_withMode i s m

end Sys2Proof.Machine

/-! PROOFS. The state as a whole (`10_state.md`). First what the six statements share: a run of steps followed together
with the positions that remain, and the six ways in which a step comes to a next state. -/

namespace Sys2Proof.Machine

/-! ### Runs with the positions that remain -/

/-- How a run of steps can end, when `P ps u` holds in each state `u` from which the positions `ps` remain to be run. -/
inductive RunEnd (P : List Pos → State → Prop) (cmd : SeqCmd) : Progress → Prop where
  | done (t : State) (h : P [] t) : RunEnd P cmd (.done t)
  | failed (u : State) (p : Pos) (ps : List Pos) (r : Request) (rest : List Answer) (h : P (p :: ps) u)
      (hr : stepRequest u p.j = some r) :
      RunEnd P cmd (.ended (raiseError r ((u.traced r .fail).withAnswers rest)))
  | waits (u : State) (p : Pos) (ps : List Pos) (r : Request) (h : P (p :: ps) u)
      (hl : u.life = .busy { cmd := cmd, pos := p }) (hr : stepRequest u p.j = some r) : RunEnd P cmd (.ended u)
  | stopped (r : Fault) : RunEnd P cmd (.stopped r)

/-- The induction over a run for a property that speaks of the positions that remain, as `runSteps_cases` is for one that
does not. -/
theorem runSteps_ends {P : List Pos → State → Prop} {cmd : SeqCmd}
    (hat : ∀ p ps s, P (p :: ps) s → P (p :: ps) (s.at cmd p))
    (hbuild : ∀ p ps s, p.j = .s2a → P (p :: ps) s → P ps (s.withCache (rowGroupBytes s s.phase)))
    (hadv : ∀ p ps s, p.j = .s5 → P (p :: ps) s → P ps (s.withPhase (s.phase + 1)))
    (hans : ∀ p ps s r rest, stepRequest s p.j = some r → P (p :: ps) s → P ps ((s.traced r .ok).withAnswers rest)) :
    ∀ (ps : List Pos) (s : State), P ps s → RunEnd P cmd (runSteps cmd ps s)
  | [], s, h => .done s h
  | p :: ps, s, h => by
    have hp := hat p ps s h
    have hc := runLabel_cases p.j (s.at cmd p)
    rw [runSteps_cons]
    generalize runLabel p.j (s.at cmd p) = o at hc
    cases hc with
    | build e => exact runSteps_ends hat hbuild hadv hans ps _ (hbuild p ps _ e hp)
    | advance e => exact runSteps_ends hat hbuild hadv hans ps _ (hadv p ps _ e hp)
    | answered r rest hr _ => exact runSteps_ends hat hbuild hadv hans ps _ (hans p ps _ r rest hr hp)
    | failed r rest hr _ => exact .failed _ p ps r rest hp hr
    | waits r hr _ => exact .waits _ p ps r hp rfl hr
    | absent _ _ _ => exact .stopped _

/-- What a run changes besides `PHASE`, `CACHE`, `LIFE` and the ports' records: nothing (R25, R26, R113, R208). -/
theorem resume_frame {job : Job} {s t : State} (h : resume job s = .next t) :
    t.cfg = s.cfg ∧ t.bright = s.bright ∧ t.fb = s.fb ∧ t.fbCapBytes = s.fbCapBytes ∧ t.inputs = s.inputs := by
  have hran := runSteps_ran job.cmd (jobSteps s.cfg.profile job) s
  unfold resume at h
  generalize runSteps job.cmd (jobSteps s.cfg.profile job) s = o at h hran
  cases hran with
  | done u hu => cases h; exact ⟨hu.cfg, hu.bright, hu.fb, hu.cap, hu.inputs⟩
  | failed u p r rest _ hu _ _ _ => cases h; exact ⟨hu.cfg, hu.bright, hu.fb, hu.cap, hu.inputs⟩
  | waits u p r _ hu _ _ _ => cases h; exact ⟨hu.cfg, hu.bright, hu.fb, hu.cap, hu.inputs⟩
  | absent u _ _ _ => cases h

/-! ### The next state of a step -/

/-- The first position of a command (R136, R147). -/
def firstPos (f : Profile) : Pos := { k := 0, j := (passOrder f).headD .s1 }

/-- A step from `s` runs `job`: the block goes on with it, or begins it at the first position. -/
def State.Runs (s : State) (job : Job) : Prop :=
  s.life = .busy job ∨ s.life = .ready ∧ job.pos = firstPos s.cfg.profile

/-- The six ways in which a step from `s` comes to a next state. -/
inductive StepNext (s : State) : State → Prop where
  | idle : StepNext s s
  /-- `SETPX` (R106). -/
  | drew (w : Word64) (rest : List HostInput) (x y : Int) (on : Bool) (hl : s.life = .ready)
      (hi : s.inputs = .command w :: rest) (hd : decode w = .command (.setpx x y on)) :
      StepNext s { s with
        inputs := rest
        fb := drawPoint s.cfg s.fb (x, y, on)
        responses := s.responses ++ [0x0000000000000000#64] }
  /-- `QDIM` (R112) and an `ILLEGAL` word (R77). -/
  | answered (rest : List HostInput) (w : Word64) (hl : s.life = .ready) :
      StepNext s { s with inputs := rest, responses := s.responses ++ [w] }
  /-- `SCAN` and `FLUSH`, begun or resumed (R30, R53). -/
  | ran (job : Job) (is : List HostInput) (t : State) (hj : s.Runs job) (h : resume job (s.withInputs is) = .next t) :
      StepNext s t
  /-- A reset (R201). -/
  | reset (w : Word64) (rest : List HostInput) (hl : s.life = .ready ∨ s.life = .dead)
      (hi : s.inputs = .reset w :: rest) : StepNext s (applyReset w (s.withInputs rest))
  /-- A reset goes on (R204). -/
  | finishing (hl : s.life = .resetting) : StepNext s (finishReset s)

/-- A command comes to its next state in one of these ways. -/
theorem exec_stepNext {i : Instr} {s t : State} {w : Word64} {rest : List HostInput} (hi : s.inputs = .command w :: rest)
    (hd : decode w = .command i) (h : exec i (s.withInputs rest) = .next t) : StepNext s t := by
  obtain ⟨hl, hs⟩ := exec_shape h
  cases i with
  | setpx x y on => cases hs; exact .drew w rest x y on hl hi hd
  | scan =>
    rw [scanSteps_eq] at hs
    exact .ran { cmd := .scan, pos := firstPos s.cfg.profile } rest t (.inr ⟨hl, rfl⟩) hs
  | flush =>
    rw [flushSteps_eq] at hs
    exact .ran { cmd := .flush, pos := firstPos s.cfg.profile } rest t (.inr ⟨hl, rfl⟩) hs
  | qdim => cases hs; exact .answered rest _ hl

/-- Every step that comes to a next state does so in one of the six ways. -/
theorem step_next {s t : State} (h : step s = .next t) : StepNext s t := by
  have hd := step_does s
  rw [h] at hd
  generalize ho : Host.Outcome.next t = o at hd
  cases hd with
  | idle _ _ => cases ho; exact .idle
  | command w i rest _ hi hd => exact exec_stepNext hi hd ho.symm
  | illegal w why rest _ _ _ =>
    obtain ⟨hl, ht⟩ := ready_of_whenReady (ho.symm : execIllegal _ = _)
    rw [respond_ready hl] at ht
    cases ht
    exact .answered rest _ hl
  | reset w rest hl hi => cases ho; exact .reset w rest hl hi
  | resumed job hl => exact .ran job s.inputs t (.inl hl) ho.symm
  | finishing hl => cases ho; exact .finishing hl

/-! ### The invariant -/

/-- The invariant's clauses about the registers alone, whatever `LIFE` is (R25, R28, R41). -/
structure RegistersFit (s : State) : Prop where
  fbCanonical : Memory.wf s.fb
  fbInside : ∀ c ∈ s.fb, c.1 < fbBytes s.cfg
  cacheFull : s.cache.length = cacheBytes s.cfg
  brightIsB0 : s.bright = if s.cfg.strategy = .duty then some s.cfg.b0 else none

theorem Inv.registersFit {s : State} (h : Inv s) : RegistersFit s :=
  ⟨h.fbCanonical, h.fbInside, h.cacheFull, h.brightIsB0⟩

/-- The clauses about registers look at four registers. -/
theorem RegistersFit.congr {s t : State} (h : RegistersFit s) (hc : t.cfg = s.cfg) (hf : t.fb = s.fb)
    (hca : t.cache = s.cache) (hb : t.bright = s.bright) : RegistersFit t := by
  constructor <;> simp only [hc, hf, hca, hb]
  exacts [h.fbCanonical, h.fbInside, h.cacheFull, h.brightIsB0]

/-- A cache of the right length fits as well. -/
theorem RegistersFit.withCache {s : State} (h : RegistersFit s) {d : List Byte} (hd : d.length = cacheBytes s.cfg) :
    RegistersFit (s.withCache d) := ⟨h.fbCanonical, h.fbInside, hd, h.brightIsB0⟩

/-- While no command runs, the invariant asks of `LIFE` only what reset settles (R202, R204). -/
theorem RegistersFit.inv_of_not_busy {s : State} (h : RegistersFit s) (hb : ∀ job, s.life ≠ .busy job)
    (hc : s.life ≠ .dead → LegalCfg s.fbCapBytes s.cfg) (hd : s.life = .resetting → s.cfg.strategy = .duty) : Inv s where
  fbCanonical := h.fbCanonical
  fbInside := h.fbInside
  cacheFull := h.cacheFull
  brightIsB0 := h.brightIsB0
  legal := hc
  resetDuty := hd
  waits job e := absurd e (hb job)
  scanPass job e := absurd e (hb job)
  transmits job e := absurd e (hb job)

theorem RegistersFit.inv_of_ready {s : State} (h : RegistersFit s) (hc : LegalCfg s.fbCapBytes s.cfg)
    (hl : s.life = .ready) : Inv s :=
  h.inv_of_not_busy (by simp [hl]) (fun _ => hc) (by simp [hl])

theorem RegistersFit.inv_of_dead {s : State} (h : RegistersFit s) (hl : s.life = .dead) : Inv s :=
  h.inv_of_not_busy (by simp [hl]) (by simp [hl]) (by simp [hl])

/-- A pixel draw keeps the registers fit: `MAP` stays inside FB space (R100). -/
theorem RegistersFit.draw {s t : State} (h : RegistersFit s) (p : Int × Int × Bool) (hc : t.cfg = s.cfg)
    (hf : t.fb = drawPoint s.cfg s.fb p) (hca : t.cache = s.cache) (hb : t.bright = s.bright) : RegistersFit t := by
  rcases hm : mapPixel s.cfg p.1 p.2.1 with _ | ⟨a, k⟩
  · exact h.congr hc (by simpa only [drawPoint, hm] using hf) hca hb
  · simp only [drawPoint, hm] at hf
    constructor <;> simp only [hc, hf, hca, hb]
    · exact Memory.wf_write h.fbCanonical _ _
    · intro c hmem
      rcases mem_write hmem with rfl | hmem
      · exact mapPixel_lt hm
      · exact h.fbInside c hmem
    · exact h.cacheFull
    · exact h.brightIsB0

/-! ### The invariant over a reset -/

/-- The values of R203 fit, whatever the word. -/
theorem registersFit_resetState (w : Word64) (s : State) : RegistersFit (resetState w s) :=
  ⟨Memory.wf_nil, by simp, resetState_cache_length w s, resetBright_eq _⟩

/-- A reset with an accepted word ends in the invariant, whatever its answer (R204). -/
theorem inv_finishReset {s : State} (h : RegistersFit s) (hc : LegalCfg s.fbCapBytes s.cfg) (hl : s.life = .resetting) :
    Inv (finishReset s) := by
  have hcase := finishReset_cases s
  generalize finishReset s = t at hcase
  cases hcase with
  | enable _ => exact RegistersFit.inv_of_ready (h.congr rfl rfl rfl rfl) hc rfl
  | waits hd _ => exact h.inv_of_not_busy (by simp [hl]) (fun _ => hc) (fun _ => hd)
  | ok _ rest _ => exact RegistersFit.inv_of_ready (h.congr rfl rfl rfl rfl) hc rfl
  | failed _ rest _ => exact RegistersFit.inv_of_dead (h.congr rfl rfl rfl rfl) rfl

/-- A reset ends in the invariant: a rejected word leaves the block `DEAD` (R202). -/
theorem inv_applyReset (w : Word64) (s : State) : Inv (applyReset w s) := by
  unfold applyReset
  split
  · rename_i hacc
    exact inv_finishReset (registersFit_resetState w s) hacc.2 rfl
  · exact RegistersFit.inv_of_dead ((registersFit_resetState w s).congr rfl rfl rfl rfl) rfl

/-! ### The invariant over a run -/

/-- What holds in a run of `cmd` when the positions `ps` remain. The idea is in `sent`: step 2b comes right after step 2a
(`chain`), so where a `BUS` request is next, the cache is the row group of `PHASE` (R130, R139). -/
structure RunFits (cmd : SeqCmd) (ps : List Pos) (s : State) : Prop where
  registers : RegistersFit s
  legal : LegalCfg s.fbCapBytes s.cfg
  chain : ps.IsChain fun p q => q.j = .s2b → p.j = .s2a
  sent : ∀ p ∈ ps.head?, p.j = .s2b → s.cache = rowGroupBytes s s.phase
  scanPass : cmd = .scan → ∀ p ∈ ps, p.k = 0

/-- After a step other than 2a no `BUS` request is next, so nothing is asked of the cache's bytes. -/
theorem RunFits.next {cmd : SeqCmd} {p : Pos} {ps : List Pos} {s t : State} (h : RunFits cmd (p :: ps) s)
    (hp : p.j ≠ .s2a) (ht : RegistersFit t) (hc : LegalCfg t.fbCapBytes t.cfg) : RunFits cmd ps t where
  registers := ht
  legal := hc
  chain := h.chain.tail
  sent q hq e := absurd ((List.isChain_cons.1 h.chain).1 q hq e) hp
  scanPass e q hq := h.scanPass e q (List.mem_cons_of_mem p hq)

/-- A run keeps `RunFits`. -/
theorem runSteps_fits (cmd : SeqCmd) {ps : List Pos} {s : State} (h : RunFits cmd ps s) :
    RunEnd (RunFits cmd) cmd (runSteps cmd ps s) := by
  refine runSteps_ends (P := RunFits cmd) ?_ ?_ ?_ ?_ ps s h
  · intro p ps u hu
    exact ⟨hu.registers.congr rfl rfl rfl rfl, hu.legal, hu.chain, hu.sent, hu.scanPass⟩
  · intro p ps u _ hu
    exact ⟨hu.registers.withCache (rowGroupBytes_length u u.phase), hu.legal, hu.chain.tail,
      fun _ _ _ => rowGroupBytes_congr _ rfl rfl, fun e q hq => hu.scanPass e q (List.mem_cons_of_mem p hq)⟩
  · intro p ps u hp hu
    exact hu.next (by simp [hp]) (hu.registers.congr rfl rfl rfl rfl) hu.legal
  · intro p ps u r rest hr hu
    exact hu.next (label_of_request hr).1 (hu.registers.congr rfl rfl rfl rfl) hu.legal

/-- A run ends in the invariant, whether the command is over or waits. -/
theorem inv_of_runEnd {cmd : SeqCmd} {o : Progress} {t : State} (h : RunEnd (RunFits cmd) cmd o)
    (ht : finish o = .next t) : Inv t := by
  cases h with
  | done u hu =>
    cases ht
    exact RegistersFit.inv_of_ready (hu.registers.congr rfl rfl rfl rfl) hu.legal rfl
  | failed u p ps r rest hu _ =>
    cases ht
    exact RegistersFit.inv_of_ready (hu.registers.congr rfl rfl rfl rfl) hu.legal rfl
  | waits u p ps r hu hl hr =>
    cases ht
    have hjob : ∀ job, t.life = .busy job → job = { cmd := cmd, pos := p } := fun job e => by
      simpa [eq_comm] using hl.symm.trans e
    exact {
      fbCanonical := hu.registers.fbCanonical
      fbInside := hu.registers.fbInside
      cacheFull := hu.registers.cacheFull
      brightIsB0 := hu.registers.brightIsB0
      legal := fun _ => hu.legal
      resetDuty := fun e => by simp [hl] at e
      waits := fun job e => by cases hjob job e; exact label_of_request hr
      scanPass := fun job e hs => by cases hjob job e; exact hu.scanPass hs p (by simp)
      transmits := fun job e hj => by cases hjob job e; exact hu.sent p rfl hj }
  | stopped r => cases ht

theorem firstPos_j (f : Profile) : (firstPos f).j = .s1 ∨ (firstPos f).j = .s2a := by cases f <;> decide

/-- The positions of `SCAN` all have pass index 0, if its current one does (R30). -/
theorem jobSteps_pass {f : Profile} {job : Job} (hs : job.cmd = .scan) (hk : job.pos.k = 0) :
    ∀ p ∈ jobSteps f job, p.k = 0 := by
  obtain ⟨cmd, k, j⟩ := job
  subst hs hk
  exact jobSteps_scan f j

/-- A command that is begun or resumed in a state of the invariant begins its run as `RunFits` asks. -/
theorem Inv.runFits {s : State} {job : Job} (h : Inv s) (hj : s.Runs job) (is : List HostInput) :
    RunFits job.cmd (jobSteps s.cfg.profile job) (s.withInputs is) where
  registers := h.registersFit.congr rfl rfl rfl rfl
  legal := h.legal (by rcases hj with hl | ⟨hl, -⟩ <;> simp [hl])
  chain := (List.isChain_map Pos.j).1 (jobSteps_chain _ job)
  sent p hp e := by
    rw [jobSteps_head, Option.mem_some_iff] at hp
    subst hp
    rcases hj with hl | ⟨-, hpos⟩
    · exact h.transmits job hl e
    · rcases firstPos_j s.cfg.profile with hf | hf <;> simp [hpos, hf] at e
  scanPass hs := jobSteps_pass hs (by
    rcases hj with hl | ⟨-, hpos⟩
    · exact h.scanPass job hl hs
    · rw [hpos]; rfl)

theorem Inv.stepNext {s t : State} (h : Inv s) (ht : StepNext s t) : Inv t := by
  cases ht with
  | idle => exact h
  | drew w rest x y on hl _ _ =>
    exact RegistersFit.inv_of_ready (h.registersFit.draw (x, y, on) rfl rfl rfl rfl) (h.legal (by simp [hl])) hl
  | answered rest w hl =>
    exact RegistersFit.inv_of_ready (h.registersFit.congr rfl rfl rfl rfl) (h.legal (by simp [hl])) hl
  | ran job is t hj hrun => exact inv_of_runEnd (runSteps_fits job.cmd (h.runFits hj is)) hrun
  | reset w rest _ _ => exact inv_applyReset w _
  | finishing hl => exact inv_finishReset h.registersFit (h.legal (by simp [hl])) hl

/-- Settles O58: the six ways a step comes to a next state each keep the invariant. -/
theorem stepKeepsInv : Obligations.StepKeepsInv := by
  unfold Obligations.StepKeepsInv
  exact fun s t h hs => h.stepNext (step_next hs)

end Sys2Proof.Machine

/-! PROOFS. What a running command takes from the host (R208, R212), what a step leaves of the configuration (R25, R26),
and that no step faults (R35). -/

namespace Sys2Proof.Machine

/-! ### A running command and the host's inputs -/

/-- No step's request depends on the host's inputs. -/
theorem stepRequest_withInputs (s : State) (is : List HostInput) (j : Label) :
    stepRequest (s.withInputs is) j = stepRequest s j := by cases j <;> rfl

/-- A running command goes on alike whatever the host will do (R208). -/
theorem resume_withInputs (job : Job) (s : State) (is : List HostInput) :
    resume job (s.withInputs is) = mapNext (State.withInputs · is) (resume job s) := by
  have hrun := runSteps_map (f := (State.withInputs · is)) (cmd := job.cmd) (hat := fun _ _ => rfl)
    (hreq := fun s j => stepRequest_withInputs s is j) (hans := fun _ => rfl) (hbuild := fun _ => rfl)
    (hadv := fun _ => rfl) (htrace := fun _ _ _ _ => rfl) (hraise := fun _ _ => rfl) (jobSteps s.cfg.profile job) s
  exact (congrArg finish hrun).trans (finish_map (f := (State.withInputs · is)) (fun _ => rfl) _)

theorem step_busy {s : State} {job : Job} (hl : s.life = .busy job) : step s = resume job s := by
  simp only [step, hl]

/-- Settles O10: a `BUSY` block only resumes its command, which does not look at the inputs and keeps them; `LIFE` refuses
every other command. -/
theorem busyBlockTakesNoInput : Obligations.BusyBlockTakesNoInput := by
  unfold Obligations.BusyBlockTakesNoInput
  intro s job hl
  refine ⟨fun is => ?_, fun t ht => ?_, fun i => (exec_refused i).1 job hl⟩
  · rw [step_busy hl]
    exact (step_busy (s := s.withInputs is) hl).trans (resume_withInputs job s is)
  · rw [step_busy hl] at ht
    obtain ⟨-, -, -, -, hinputs⟩ := resume_frame ht
    exact hinputs

/-! ### The configuration -/

/-- The end of a reset writes neither `CFG` nor `BRIGHT` nor the capacity (R204). -/
theorem finishReset_frame (s : State) : (finishReset s).cfg = s.cfg ∧ (finishReset s).bright = s.bright ∧
    (finishReset s).fbCapBytes = s.fbCapBytes := by
  have hcase := finishReset_cases s
  generalize finishReset s = t at hcase
  cases hcase <;> exact ⟨rfl, rfl, rfl⟩

/-- Settles O39: of the six ways a step comes to a next state only a reset writes the configuration. -/
theorem onlyResetWritesConfiguration : Obligations.OnlyResetWritesConfiguration := by
  unfold Obligations.OnlyResetWritesConfiguration
  intro s t hreset hs
  cases step_next hs with
  | idle => exact ⟨rfl, rfl, rfl⟩
  | drew w rest x y on _ _ _ => exact ⟨rfl, rfl, rfl⟩
  | answered rest w _ => exact ⟨rfl, rfl, rfl⟩
  | ran job is _ _ hrun =>
    obtain ⟨hcfg, hbright, -, hcap, -⟩ := resume_frame hrun
    exact ⟨hcfg, hbright, hcap⟩
  | reset w rest hl hi => exact absurd ⟨hl, w, rest, hi⟩ hreset
  | finishing _ => exact finishReset_frame s

/-! ### No step faults -/

theorem noFault_next (s : State) : NoFault (.next s) := by intro r; simp

theorem noFault_refused (e : Refusal) : NoFault (.refused e) := by intro r; simp

/-- The command port adds no fault to a run. -/
theorem noFault_whenReady {s : State} {run : State → Host.Outcome State Fault Refusal} (h : NoFault (run s)) :
    NoFault (whenReady s run) := by
  rcases hl : s.life with _ | job | _ | _ <;> simp only [whenReady, hl]
  · exact h
  · exact noFault_refused _
  · exact noFault_refused _
  · exact noFault_refused _

/-- A run faults nowhere while `BRIGHT` is there under `DUTY`: that is the one way a run can stop (R25). -/
theorem noFault_runSteps {s : State} (hb : s.cfg.strategy = .duty → s.bright ≠ none) (cmd : SeqCmd) (ps : List Pos) :
    NoFault (finish (runSteps cmd ps s)) := by
  have hran := runSteps_ran cmd ps s
  generalize runSteps cmd ps s = o at hran
  cases hran with
  | done u _ => exact noFault_next _
  | failed u p r rest _ _ _ _ _ => exact noFault_next _
  | waits u p r _ _ _ _ _ => exact noFault_next _
  | absent u hu hd hn => exact absurd (hu.bright ▸ hn) (hb (hu.cfg ▸ hd))

/-- `SETPX` faults nowhere: its bounds are `MAP`'s domain, and `MAP` stays inside FB space (R98, R100). -/
theorem noFault_setPixel (x y : Int) (on : Bool) (s : State) : NoFault (setPixel x y on s) := by
  rcases hm : mapPixel s.cfg x y with _ | ⟨a, m⟩
  · rw [setPixel, if_neg (mapPixel_eq_none.1 hm)]
    exact noFault_next _
  · have hb : InBounds s.cfg x y := by
      by_contra hb
      rw [mapPixel_eq_none.2 hb] at hm
      cases hm
    simp only [setPixel, if_pos hb, hm, setPixelAt, memRead_inside (mapPixel_lt hm), memWrite_inside (mapPixel_lt hm)]
    exact noFault_next _

/-- No command faults while `BRIGHT` is there under `DUTY`. -/
theorem noFault_exec {s : State} (hb : s.cfg.strategy = .duty → s.bright ≠ none) (i : Instr) : NoFault (exec i s) := by
  obtain ⟨run, hexec, hrun⟩ := exec_whenReady i s
  rw [hexec]
  apply noFault_whenReady
  rw [hrun]
  cases i with
  | setpx x y on => exact noFault_setPixel x y on s
  | scan => exact noFault_runSteps hb .scan _
  | flush => exact noFault_runSteps hb .flush _
  | qdim => exact noFault_next _

theorem Inv.bright_present {s : State} (h : Inv s) (hd : s.cfg.strategy = .duty) : s.bright ≠ none := by
  simp [h.brightIsB0, hd]

/-- Settles O49: the invariant has `BRIGHT` present under `DUTY`, and no other fault can be raised at all. -/
theorem noStepFaults : Obligations.NoStepFaults := by
  unfold Obligations.NoStepFaults
  intro s h
  have hdoes := step_does s
  generalize step s = o at hdoes
  cases hdoes with
  | idle _ _ => exact noFault_next s
  | command w i rest _ _ _ => exact noFault_exec (s := s.withInputs rest) h.bright_present i
  | illegal w why rest _ _ _ => exact noFault_whenReady (noFault_next _)
  | reset w rest _ _ => exact noFault_next _
  | resumed job _ => exact noFault_runSteps h.bright_present job.cmd _
  | finishing _ => exact noFault_next _

end Sys2Proof.Machine

/-! PROOFS. `PHASE` (R24, R142) counts the passes whose last row-address request was answered `OK`: step 5 comes right
after step 4b, which issues that request, and after no other step. -/

namespace Sys2Proof.Machine

/-- The trace entry of an `OK` answer to `LINE(B, ..)`, the last row-address request of a pass (R141). -/
def rowAddressed (e : Request × Answer) : Bool := e == (.line .b .low, .ok) || e == (.line .b .high, .ok)

/-- Step 4b and no other issues `LINE(B, ..)` (R141). -/
theorem rowAddressed_stepRequest {s : State} {j : Label} {r : Request} (h : stepRequest s j = some r) :
    rowAddressed (r, .ok) = (j == .s4b) := by
  cases j with
  | s1 =>
    cases h
    unfold blankRequest
    split <;> rfl
  | s2a => cases h
  | s2b => cases h; rfl
  | s3a => cases h; rfl
  | s3b => cases h; rfl
  | s4a => cases h; rfl
  | s4b =>
    cases h
    unfold lvl
    split <;> rfl
  | s5 => cases h
  | s6 =>
    simp only [stepRequest, unblankRequest] at h
    split at h
    · obtain ⟨v, -, rfl⟩ := Option.map_eq_some_iff.1 h
      rfl
    · cases h; rfl

theorem rowAddressed_fail (r : Request) : rowAddressed (r, .fail) = false := by simp [rowAddressed]

/-- Step 5, the advance of `PHASE`, is the next to run. -/
def advanceNext (ps : List Pos) : Bool := ps.head?.map Pos.j == some .s5

theorem advanceNext_cons (p : Pos) (ps : List Pos) : advanceNext (p :: ps) = (p.j == .s5) := rfl

/-- Step 5 follows each step 4b, and no other step. -/
def advancesPaired : List Pos → Bool
  | [] => true
  | p :: ps => ((p.j == .s4b) == advanceNext ps) && advancesPaired ps

theorem jobSteps_advancesPaired (f : Profile) (job : Job) : advancesPaired (jobSteps f job) = true := by
  obtain ⟨cmd, ⟨k, j⟩⟩ := job
  cases f <;> cases cmd <;> cases j <;> (revert k; decide)

/-- From `s` to `t` the trace has grown, and `PHASE` has advanced by the row addresses answered `OK`, with `due` advances
still to be made. -/
def PhaseCounted (due : Nat) (s t : State) : Prop :=
  ∃ es, t.trace = s.trace ++ es ∧ t.phase + BitVec.ofNat 2 due = s.phase + BitVec.ofNat 2 (es.countP rowAddressed)

/-- Nothing was issued and `PHASE` was not written. -/
theorem PhaseCounted.of_same {s t : State} (ht : t.trace = s.trace) (hp : t.phase = s.phase) : PhaseCounted 0 s t :=
  ⟨[], by simp [ht], by simp [hp]⟩

/-- One more request, and one more advance due if it was a row address answered `OK`. -/
theorem PhaseCounted.request {s t u : State} (h : PhaseCounted 0 s t) (r : Request) (a : Answer)
    (ht : u.trace = t.trace ++ [(r, a)]) (hp : u.phase = t.phase) :
    PhaseCounted (rowAddressed (r, a)).toNat s u := by
  obtain ⟨es, htrace, hphase⟩ := h
  refine ⟨es ++ [(r, a)], by rw [ht, htrace, List.append_assoc], ?_⟩
  have hcount : [(r, a)].countP rowAddressed = (rowAddressed (r, a)).toNat := by
    cases hr : rowAddressed (r, a) <;> simp [hr]
  rw [List.countP_append, hcount, BitVec.ofNat_add, ← BitVec.add_assoc, ← hphase, hp]
  simp

/-- The advance that is due is made. -/
theorem PhaseCounted.advance {s t : State} (h : PhaseCounted 1 s t) : PhaseCounted 0 s (t.withPhase (t.phase + 1)) := by
  obtain ⟨es, htrace, hphase⟩ := h
  exact ⟨es, htrace, by simpa using hphase⟩

/-- What holds in a run from `s` when the positions `ps` remain: an advance is due exactly when step 5 is next. -/
structure RunCounts (s : State) (ps : List Pos) (u : State) : Prop where
  paired : advancesPaired ps = true
  counted : PhaseCounted (advanceNext ps).toNat s u

theorem RunCounts.tail {s u : State} {p : Pos} {ps : List Pos} (h : RunCounts s (p :: ps) u) :
    advanceNext ps = (p.j == .s4b) ∧ advancesPaired ps = true := by
  have hpaired := h.paired
  simp only [advancesPaired, Bool.and_eq_true, beq_iff_eq] at hpaired
  exact ⟨hpaired.1.symm, hpaired.2⟩

theorem RunCounts.counted_of_ne {s u : State} {p : Pos} {ps : List Pos} (h : RunCounts s (p :: ps) u) (hp : p.j ≠ .s5) :
    PhaseCounted 0 s u := by
  have hcounted := h.counted
  rwa [advanceNext_cons, beq_eq_false_iff_ne.2 hp] at hcounted

/-- A run keeps the count. -/
theorem runSteps_counts {s : State} {ps : List Pos} (cmd : SeqCmd) (hps : advancesPaired ps = true)
    (hhead : advanceNext ps = false) : RunEnd (RunCounts s) cmd (runSteps cmd ps s) := by
  refine runSteps_ends (P := RunCounts s) ?_ ?_ ?_ ?_ ps s ⟨hps, by simpa [hhead] using .of_same rfl rfl⟩
  · exact fun p ps u hu => ⟨hu.paired, hu.counted⟩
  · intro p ps u hp hu
    obtain ⟨hnext, hpaired⟩ := hu.tail
    refine ⟨hpaired, ?_⟩
    rw [hnext, hp]
    exact hu.counted_of_ne (by simp [hp])
  · intro p ps u hp hu
    obtain ⟨hnext, hpaired⟩ := hu.tail
    refine ⟨hpaired, ?_⟩
    rw [hnext, hp]
    exact PhaseCounted.advance (by simpa [advanceNext_cons, hp] using hu.counted)
  · intro p ps u r rest hr hu
    obtain ⟨hnext, hpaired⟩ := hu.tail
    refine ⟨hpaired, ?_⟩
    rw [hnext, ← rowAddressed_stepRequest hr]
    exact (hu.counted_of_ne (label_of_request hr).2).request r .ok rfl rfl

/-- Wherever a run ends, no advance is due. -/
theorem phaseCounted_of_runEnd {cmd : SeqCmd} {o : Progress} {s t : State} (h : RunEnd (RunCounts s) cmd o)
    (ht : finish o = .next t) : PhaseCounted 0 s t := by
  cases h with
  | done u hu => cases ht; exact hu.counted
  | failed u p ps r rest hu hr =>
    cases ht
    have := (hu.counted_of_ne (label_of_request hr).2).request r .fail
      (u := raiseError r ((u.traced r .fail).withAnswers rest)) rfl rfl
    rwa [rowAddressed_fail] at this
  | waits u p ps r hu _ hr => cases ht; exact hu.counted_of_ne (label_of_request hr).2
  | stopped r => cases ht

/-- A command that is begun or resumed in a state of the invariant does not stand at step 5. -/
theorem Inv.advanceNext_jobSteps {s : State} {job : Job} (h : Inv s) (hj : s.Runs job) :
    advanceNext (jobSteps s.cfg.profile job) = false := by
  have hne : job.pos.j ≠ .s5 := by
    rcases hj with hl | ⟨-, hpos⟩
    · exact (h.waits job hl).2
    · rcases firstPos_j s.cfg.profile with hf | hf <;> simp [hpos, hf]
  simp [advanceNext, jobSteps_head, hne]

/-- The end of a reset issues at most `DUTY(B0)` (R204). -/
theorem phaseCounted_finishReset (s : State) : PhaseCounted 0 s (finishReset s) := by
  have hcase := finishReset_cases s
  generalize finishReset s = t at hcase
  cases hcase with
  | enable _ => exact .of_same rfl rfl
  | waits _ _ => exact .of_same rfl rfl
  | ok _ rest _ => exact (PhaseCounted.of_same (s := s) rfl rfl).request (.duty s.cfg.b0) .ok rfl rfl
  | failed _ rest _ => exact (PhaseCounted.of_same (s := s) rfl rfl).request (.duty s.cfg.b0) .fail rfl rfl

/-- Settles O41: a run advances `PHASE` once per row address answered `OK`, and no other step without a reset writes it. -/
theorem phaseCountsAddressedPasses : Obligations.PhaseCountsAddressedPasses := by
  unfold Obligations.PhaseCountsAddressedPasses
  intro s t hreset hinv hs
  have hcount : PhaseCounted 0 s t := by
    cases step_next hs with
    | idle => exact .of_same rfl rfl
    | drew w rest x y on _ _ _ => exact .of_same rfl rfl
    | answered rest w _ => exact .of_same rfl rfl
    | ran job is _ hj hrun =>
      have hends := runSteps_counts (s := s.withInputs is) job.cmd (jobSteps_advancesPaired s.cfg.profile job)
        (hinv.advanceNext_jobSteps hj)
      have hran : PhaseCounted 0 (s.withInputs is) t := phaseCounted_of_runEnd hends hrun
      exact hran
    | reset w rest hl hi => exact absurd ⟨hl, w, rest, hi⟩ hreset
    | finishing _ => exact phaseCounted_finishReset s
  obtain ⟨es, htrace, hphase⟩ := hcount
  exact ⟨es, htrace, (BitVec.add_zero _).symm.trans hphase⟩

end Sys2Proof.Machine

/-! PROOFS. The cache's contents (R28, R129): a command reads the cache only at step 2b, and step 2a has rebuilt it just
before. -/

namespace Sys2Proof.Machine

/-- No request but the one of step 2b carries cache bytes (R137, R144). -/
theorem stepRequest_withCache (s : State) (d : List Byte) {j : Label} (h : j ≠ .s2b) :
    stepRequest (s.withCache d) j = stepRequest s j := by
  cases j with
  | s2b => exact absurd rfl h
  | _ => rfl

/-- A step that neither rebuilds nor sends the cache carries its contents along. -/
theorem runLabel_withCache (s : State) (d : List Byte) {j : Label} (ha : j ≠ .s2a) (hb : j ≠ .s2b) :
    runLabel j (s.withCache d) = (runLabel j s).map (State.withCache · d) := by
  have hreq : requestStep j (s.withCache d) = (requestStep j s).map (State.withCache · d) := by
    unfold requestStep
    rw [stepRequest_withCache s d hb]
    rcases stepRequest s j with _ | r
    · rfl
    · rcases hans : s.answers with _ | ⟨_ | _, rest⟩ <;>
        simp only [issue, emit, State.withCache_answers, hans] <;> rfl
  cases j with
  | s2a => exact absurd rfl ha
  | s5 => rfl
  | _ => exact hreq

/-- Two runs that differ in the cache's contents differ at most in them, if step 2a comes before each step 2b. -/
theorem runSteps_withCache (cmd : SeqCmd) : ∀ (ps : List Pos) (s : State) (d : List Byte),
    ps.IsChain (fun p q => q.j = .s2b → p.j = .s2a) → (∀ p ∈ ps.head?, p.j ≠ .s2b) →
    (runSteps cmd ps (s.withCache d)).map (State.withCache · []) = (runSteps cmd ps s).map (State.withCache · [])
  | [], _, _, _, _ => rfl
  | p :: ps, s, d, hchain, hhead => by
    rw [runSteps_cons, runSteps_cons]
    have hat : (s.withCache d).at cmd p = (s.at cmd p).withCache d := rfl
    rw [hat]
    by_cases ha : p.j = .s2a
    · simp only [ha, runLabel, buildStep, buildCache_eq]
      rfl
    · rw [runLabel_withCache _ d ha (hhead p rfl)]
      cases runLabel p.j (s.at cmd p) with
      | done t =>
        exact runSteps_withCache cmd ps t d hchain.tail fun q hq hb => ha ((List.isChain_cons.1 hchain).1 q hq hb)
      | ended t => rfl
      | stopped r => rfl

/-- A command that begins its run does not see the cache's contents. -/
theorem resume_withCache {s : State} {job : Job} (hpos : job.pos = firstPos s.cfg.profile) (d : List Byte) :
    mapNext (State.withCache · []) (resume job (s.withCache d)) = mapNext (State.withCache · []) (resume job s) := by
  have hhead : ∀ p ∈ (jobSteps s.cfg.profile job).head?, p.j ≠ .s2b := by
    intro p hp
    rw [jobSteps_head, Option.mem_some_iff] at hp
    subst hp
    rcases firstPos_j s.cfg.profile with hf | hf <;> simp [hpos, hf]
  have hrun := runSteps_withCache job.cmd (jobSteps s.cfg.profile job) s d
    ((List.isChain_map Pos.j).1 (jobSteps_chain _ job)) hhead
  have hok : ∀ u : State, respondOk (u.withCache []) = (respondOk u).withCache [] := fun _ => rfl
  unfold resume
  rw [← finish_map (f := (State.withCache · [])) hok, ← finish_map (f := (State.withCache · [])) hok]
  exact congrArg finish hrun

/-- A command taken by a ready block does not see the cache's contents. -/
theorem exec_withCache_ready (i : Instr) {s : State} (h : s.life = .ready) (d : List Byte) :
    mapNext (State.withCache · []) (exec i (s.withCache d)) = mapNext (State.withCache · []) (exec i s) := by
  have h' : (s.withCache d).life = .ready := h
  cases i with
  | setpx x y on =>
    rcases hm : mapPixel s.cfg x y with _ | ⟨a, k⟩
    · rw [exec_setpx_outside h hm, exec_setpx_outside h' (by simpa using hm)]; rfl
    · rw [exec_setpx_inside h hm, exec_setpx_inside h' (by simpa using hm)]; rfl
  | scan =>
    rw [exec_scan_ready h, exec_scan_ready h', State.withCache_cfg, scanSteps_eq]
    exact resume_withCache (job := { cmd := .scan, pos := firstPos s.cfg.profile }) rfl d
  | flush =>
    rw [exec_flush_ready h, exec_flush_ready h', State.withCache_cfg, flushSteps_eq]
    exact resume_withCache (job := { cmd := .flush, pos := firstPos s.cfg.profile }) rfl d
  | qdim => rw [exec_qdim h, exec_qdim h']; rfl

/-- Settles O46: a ready block runs the command without seeing the cache, any other refuses it by `LIFE` alone. -/
theorem cacheContentsAreNotObserved : Obligations.CacheContentsAreNotObserved := by
  unfold Obligations.CacheContentsAreNotObserved
  intro s i d
  change mapNext (State.withCache · []) (exec i (s.withCache d)) = mapNext (State.withCache · []) (exec i s)
  obtain ⟨hbusy, hdead, hreset⟩ := exec_refused i (s := s)
  obtain ⟨hbusy', hdead', hreset'⟩ := exec_refused i (s := s.withCache d)
  rcases hl : s.life with _ | job | _ | _
  · exact exec_withCache_ready i hl d
  · rw [hbusy job hl, hbusy' job hl]
  · rw [hdead hl, hdead' hl]
  · rw [hreset hl, hreset' hl]

end Sys2Proof.Machine

/-! PROOFS. Requests that wait for their answers (`20_memory.md` R53): where `SCAN` and `FLUSH` stay while the next answer is
missing, and that a command resumed there does what it would have done without the wait. -/

namespace Sys2Proof.Machine

/-! ### Where a command waits -/

theorem inFlight_busy {s : State} {job : Job} (h : s.life = .busy job) : s.inFlight = stepRequest s job.pos.j := by
  simp only [State.inFlight, h]

/-- Settles O31: the one pass of `SCAN` waits at its `n`-th request, and that request is the one in flight there. -/
theorem scanWaitsForAnAnswer : Obligations.ScanWaitsForAnAnswer := by
  unfold Obligations.ScanWaitsForAnAnswer
  intro s v n r hl hb ha hr
  refine ⟨_, ?_, ?_, rfl⟩
  · rw [exec_scan_ready hl, pass_waits .scan 0 hb ha hr]
    rfl
  · rw [inFlight_busy rfl]
    exact stepRequest_requestLabel s.phase hr rfl rfl hb (fun hn => if_neg hn) (fun hn => if_pos hn)

/-- The state in which a flush begins pass `k`, with the answers `rest` left after the passes before it (R147). -/
def State.atPass (s : State) (v : BitVec 16) (k : Nat) (l : Life) (rest : List Answer) : State :=
  { s with
    life := l
    phase := s.phase + BitVec.ofNat 2 k
    cache := cacheBefore s k
    answers := rest
    trace := s.trace ++ answeredOk (passesRequests s v k) }

/-- A flush whose first `k` passes are answered `OK` comes to pass `k`. -/
theorem flushSteps_atPass {s : State} {v : BitVec 16} {rest : List Answer} (k : Fin 4) (hb : BrightIs s v)
    (ha : s.answers = List.replicate (7 * k) .ok ++ rest) :
    ∃ l ps, runSteps .flush (flushSteps s.cfg.profile) s =
      runSteps .flush (passSteps s.cfg.profile k ++ ps) (s.atPass v k l rest) := by
  obtain ⟨ks, ls, hks, hsteps⟩ := flushSteps_split s.cfg.profile k
  obtain ⟨l, hdone⟩ := passes_done .flush ks hb (hks ▸ ha)
  refine ⟨l, ls.flatMap (passSteps s.cfg.profile), ?_⟩
  rw [hsteps, runSteps_append, hdone, hks]
  rfl

/-- `PHASE` at request `n` of pass `k`, as a count of advances (R148). -/
theorem phaseAt_pass (p : BitVec 2) (k n : Nat) :
    phaseAt (p + BitVec.ofNat 2 k) n = p + BitVec.ofNat 2 (if n = 6 then k + 1 else k) := by
  unfold phaseAt
  split
  · rw [BitVec.ofNat_add, ← BitVec.add_assoc]
    rfl
  · rfl

/-- Settles O34: the `k` passes before are done, and pass `k` waits at its `n`-th request as the pass of `SCAN` does. -/
theorem flushWaitsForAnAnswer : Obligations.FlushWaitsForAnAnswer := by
  unfold Obligations.FlushWaitsForAnAnswer
  intro s v k n r hl hb hn ha hr
  obtain ⟨htake, hget⟩ := flushRequests_at (s := s) (v := v) k.isLt hn
  rw [hget] at hr
  obtain ⟨l, ps, hrun⟩ := flushSteps_atPass k hb (ha.trans List.replicate_append_replicate.symm)
  have hwait := pass_waits (s := s.atPass v k l (List.replicate n .ok)) .flush k hb rfl hr
  refine ⟨_, ?_, ?_, rfl⟩
  · have hcfg : s.cfg.profile = (s.atPass v k l (List.replicate n .ok)).cfg.profile := rfl
    rw [exec_flush_ready hl, hrun, runSteps_append, hcfg, hwait, htake, answeredOk_append, ← List.append_assoc,
      ← phaseAt_pass]
    rfl
  · rw [inFlight_busy rfl]
    refine stepRequest_requestLabel (s.phase + BitVec.ofNat 2 k) hr rfl rfl hb (fun hn6 => ?_) (fun hn => if_pos hn)
    simp only [if_neg hn6]

/-! ### A wait changes nothing -/

/-- A run that waits at `job'`, with more answers there from the start, is the run resumed at `job'` with them (R53). -/
theorem resume_offer {job job' : Job} {s t : State} (h : resume job s = .next t) (hl : t.life = .busy job')
    (more : List Answer) : resume job (s.offer more) = resume job' (t.offer more) := by
  rcases finish_next h with ⟨u, -, rfl⟩ | hended
  · cases hl
  · obtain ⟨qs, p, rs, hsteps, rfl, hcfg, hrun⟩ := runSteps_offer more _ s t job' hended hl
    simp only [resume, State.offer_cfg, hcfg, hrun, jobSteps_suffix hsteps]

/-- A ready block's `SCAN` is its job run from the first position (R136). -/
theorem exec_scan_resume {s : State} (h : s.life = .ready) :
    exec .scan s = resume { cmd := .scan, pos := firstPos s.cfg.profile } s := by
  rw [exec_scan_ready h, scanSteps_eq]
  rfl

/-- A ready block's `FLUSH` is its job run from the first position (R147). -/
theorem exec_flush_resume {s : State} (h : s.life = .ready) :
    exec .flush s = resume { cmd := .flush, pos := firstPos s.cfg.profile } s := by
  rw [exec_flush_ready h, flushSteps_eq]
  rfl

/-- A command that waits, with more answers there from the start, is the command resumed with them. -/
theorem exec_offer {i : Instr} {job : Job} {s t : State} (h : exec i s = .next t) (hl : t.life = .busy job)
    (more : List Answer) : exec i (s.offer more) = resume job (t.offer more) := by
  obtain ⟨hready, hshape⟩ := exec_shape h
  have hready' : (s.offer more).life = .ready := hready
  cases i with
  | setpx x y on => cases hshape; simp [hready] at hl
  | qdim => cases hshape; simp [hready] at hl
  | scan =>
    rw [exec_scan_resume hready] at h
    rw [exec_scan_resume hready']
    exact resume_offer h hl more
  | flush =>
    rw [exec_flush_resume hready] at h
    rw [exec_flush_resume hready']
    exact resume_offer h hl more

/-- A block between commands runs the command word that is its next input (R71). -/
theorem step_command {s : State} {w : Word64} {i : Instr} {rest : List HostInput} (hl : s.life = .ready ∨ s.life = .dead)
    (hi : s.inputs = .command w :: rest) (hd : decode w = .command i) : step s = exec i (s.withInputs rest) := by
  rcases hl with hl | hl <;> simp only [step, hl, takeInput, hi, acceptWord, hd]

/-- No command runs once a reset has gone on (R201, R204). -/
theorem finishReset_not_busy {s : State} (h : s.life = .resetting) (job : Job) : (finishReset s).life ≠ .busy job := by
  have hcase := finishReset_cases s
  generalize finishReset s = t at hcase
  cases hcase with
  | waits _ _ => simp [h]
  | enable _ => simp [respondOk]
  | ok _ rest _ => simp [respondOk]
  | failed _ rest _ => simp [respondDead]

/-- No command runs after a reset is taken (R201). -/
theorem applyReset_not_busy (w : Word64) (s : State) (job : Job) : (applyReset w s).life ≠ .busy job := by
  unfold applyReset
  split
  · exact finishReset_not_busy rfl job
  · simp [respondDead]

/-- Settles O35: only a command begun or resumed leaves the block `BUSY`, and then the answers may come before or after. -/
theorem resumedRunEqualsOneRun : Obligations.ResumedRunEqualsOneRun := by
  unfold Obligations.ResumedRunEqualsOneRun
  intro s t job more hs hl
  change step (t.offer more) = step (s.offer more)
  rw [step_busy (s := t.offer more) hl]
  have hdoes := step_does s
  rw [hs] at hdoes
  generalize ho : Host.Outcome.next t = o at hdoes
  cases hdoes with
  | idle hl' _ => cases ho; simp [hl] at hl'
  | command w i rest hl' hi hd =>
    rw [step_command (s := s.offer more) hl' hi hd]
    exact (exec_offer ho.symm hl more).symm
  | illegal w why rest _ _ _ =>
    obtain ⟨-, ht⟩ := ready_of_whenReady (ho.symm : execIllegal _ = _)
    cases ht
    cases hl
  | reset w rest _ _ => cases ho; exact absurd hl (applyReset_not_busy w _ job)
  | resumed job' hl' =>
    rw [step_busy (s := s.offer more) hl']
    exact (resume_offer ho.symm hl more).symm
  | finishing hl' => cases ho; exact absurd hl (finishReset_not_busy hl' job)

end Sys2Proof.Machine

/-! PROOFS. Which port the brightness requests use (R55, R168): every request of a step is one that the strategy allows. -/

namespace Sys2Proof.Machine

/-- A request that a strategy allows: `LINE(EN, ..)` with `ENABLE` only, `DUTY` with `DUTY` only (R55). -/
def Request.fits (g : Strategy) : Request → Prop
  | .line .en _ => g = .enable
  | .duty _ => g = .duty
  | .line .lat _ => True
  | .line .a _ => True
  | .line .b _ => True
  | .bus _ => True

/-- The request of a step is one that the strategy allows (R137, R144, R166). -/
theorem stepRequest_fits {s : State} {j : Label} {r : Request} (h : stepRequest s j = some r) :
    r.fits s.cfg.strategy := by
  cases j with
  | s1 =>
    cases h
    unfold blankRequest
    split <;> assumption
  | s6 =>
    simp only [stepRequest, unblankRequest] at h
    split at h
    · obtain ⟨v, -, rfl⟩ := Option.map_eq_some_iff.1 h
      assumption
    · cases h; assumption
  | s2a => cases h
  | s5 => cases h
  | s2b => cases h; trivial
  | s3a => cases h; trivial
  | s3b => cases h; trivial
  | s4a => cases h; trivial
  | s4b => cases h; trivial

/-- From `s` to `t` the trace has grown by requests that the strategy of `t` allows. -/
def PortsKept (s t : State) : Prop :=
  ∃ es, t.trace = s.trace ++ es ∧ ∀ e ∈ es, e.1.fits t.cfg.strategy

/-- Nothing was issued. -/
theorem PortsKept.of_same {s t : State} (h : t.trace = s.trace) : PortsKept s t := ⟨[], by simp [h], by simp⟩

/-- One more request that the strategy allows. -/
theorem PortsKept.request {s t u : State} (h : PortsKept s t) {r : Request} {a : Answer}
    (hr : r.fits t.cfg.strategy) (ht : u.trace = t.trace ++ [(r, a)]) (hc : u.cfg = t.cfg) : PortsKept s u := by
  obtain ⟨es, htrace, hes⟩ := h
  refine ⟨es ++ [(r, a)], by rw [ht, htrace, List.append_assoc], fun e he => ?_⟩
  rw [hc]
  rcases List.mem_append.1 he with he | he
  · exact hes e he
  · cases List.mem_singleton.1 he
    exact hr

/-- A run issues only requests that the strategy allows. -/
theorem portsKept_resume {job : Job} {s t : State} (h : resume job s = .next t) : PortsKept s t := by
  have hran : RunCase (PortsKept s) job.cmd _ (runSteps job.cmd (jobSteps s.cfg.profile job) s) :=
    runSteps_cases (fun _ _ hu => hu) (fun _ hu => hu) (fun _ hu => hu)
      (fun _ _ _ _ hu hr _ => hu.request (stepRequest_fits hr) rfl rfl) _ s (.of_same rfl)
  unfold resume at h
  generalize runSteps job.cmd (jobSteps s.cfg.profile job) s = o at h hran
  cases hran with
  | done u hu => cases h; exact hu
  | failed u p r rest _ hu _ hr _ => cases h; exact hu.request (stepRequest_fits hr) rfl rfl
  | waits u p r _ hu _ _ _ => cases h; exact hu
  | absent u _ _ _ => cases h

/-- The end of a reset issues `DUTY(B0)` only if the strategy is `DUTY` (R204). -/
theorem portsKept_finishReset (s : State) : PortsKept s (finishReset s) := by
  have hsame : PortsKept s s := .of_same rfl
  have hcase := finishReset_cases s
  generalize finishReset s = t at hcase
  cases hcase with
  | enable _ => exact .of_same rfl
  | waits _ _ => exact hsame
  | ok hd rest _ => exact hsame.request (r := .duty s.cfg.b0) hd rfl rfl
  | failed hd rest _ => exact hsame.request (r := .duty s.cfg.b0) hd rfl rfl

/-- A reset issues only what the strategy of its word allows (R202, R204). -/
theorem portsKept_applyReset (w : Word64) (s : State) : PortsKept s (applyReset w s) := by
  unfold applyReset
  split
  · exact portsKept_finishReset (resetState w s)
  · exact .of_same rfl

/-- Every way a step comes to a next state issues only requests that the strategy allows. -/
theorem portsKept_step {s t : State} (h : step s = .next t) : PortsKept s t := by
  cases step_next h with
  | idle => exact .of_same rfl
  | drew w rest x y on _ _ _ => exact .of_same rfl
  | answered rest w _ => exact .of_same rfl
  | ran job is _ _ hrun => exact portsKept_resume (s := s.withInputs is) hrun
  | reset w rest _ _ => exact portsKept_applyReset w (s.withInputs rest)
  | finishing _ => exact portsKept_finishReset s

/-- Settles O37: the requests a step adds are all allowed by the strategy, which leaves out `LINE(EN, ..)` or `DUTY`. -/
theorem portUsageByStrategy : Obligations.PortUsageByStrategy := by
  unfold Obligations.PortUsageByStrategy
  intro s t hs
  obtain ⟨es, htrace, hes⟩ := portsKept_step hs
  refine ⟨es, htrace, fun hg v a hmem => ?_, fun hg v a hmem => ?_⟩
  · have hfit : t.cfg.strategy = .enable := hes _ hmem
    simp [hg] at hfit
  · have hfit : t.cfg.strategy = .duty := hes _ hmem
    simp [hg] at hfit

end Sys2Proof.Machine

/-! PROOFS. The command words (`30_encoding.md`): the decoder and the encoder are inverse to each other on the well-formed
commands, and what the opcode table (R76) and the rule of the `ILLEGAL` words (R77) say of the bits follows. -/

namespace Sys2Proof

/-! ### The fields of a `SETPX` word (R73, R83) -/

/-- The three fields of a `SETPX` word below its opcode stay within their bits. -/
theorem encodeP_fields_lt (x y : Int) (on : Bool) : (BitVec.ofInt 16 x).toNat < 2 ^ 16 ∧
    (BitVec.ofInt 16 y).toNat < 2 ^ 16 ∧ (if on then 1 else 0) < 2 :=
  ⟨(BitVec.ofInt 16 x).isLt, (BitVec.ofInt 16 y).isLt, by cases on <;> decide⟩

@[simp] theorem opField_encodeP (x y : Int) (on : Bool) : opField (encodeP x y on) = 0x1#4 := by
  obtain ⟨hx, hy, hon⟩ := encodeP_fields_lt x y on
  rw [opField_eq_iff, encodeP_toNat]
  change _ = 1
  omega

@[simp] theorem reservedField_encodeP (x y : Int) (on : Bool) : reservedField (encodeP x y on) = 0 := by
  obtain ⟨hx, hy, hon⟩ := encodeP_fields_lt x y on
  rw [reservedField_eq_zero_iff, encodeP_toNat]
  omega

@[simp] theorem onField_encodeP (x y : Int) (on : Bool) : onField (encodeP x y on) = on := by
  obtain ⟨hx, hy, -⟩ := encodeP_fields_lt x y on
  rw [onField_eq, encodeP_toNat]
  cases on <;> simp <;> omega

@[simp] theorem yField_encodeP (x y : Int) (on : Bool) : yField (encodeP x y on) = BitVec.ofInt 16 y := by
  obtain ⟨hx, hy, hon⟩ := encodeP_fields_lt x y on
  apply BitVec.eq_of_toNat_eq
  rw [yField_toNat, encodeP_toNat]
  omega

@[simp] theorem xField_encodeP (x y : Int) (on : Bool) : xField (encodeP x y on) = BitVec.ofInt 16 x := by
  obtain ⟨hx, hy, hon⟩ := encodeP_fields_lt x y on
  apply BitVec.eq_of_toNat_eq
  rw [xField_toNat, encodeP_toNat]
  omega

/-- A coordinate that fits its field is read back from it (R74). -/
theorem sext16_ofInt {z : Int} (h : Coord16 z) : sext16 (BitVec.ofInt 16 z) = z := by
  obtain ⟨hlo, hhi⟩ := h
  exact BitVec.toInt_ofInt_eq_self (by omega) hlo (by omega)

/-- What a coordinate field holds fits it (R74). -/
theorem coord16_sext16 (v : BitVec 16) : Coord16 (sext16 v) := by
  have hlo := v.le_toInt
  have hhi := v.toInt_lt
  unfold sext16
  omega

/-- A format P word is put together again from its coordinates and its `ON` bit (R73). -/
theorem encodeP_fields {w : Word64} (hop : opField w = 0x1#4) (hres : reservedField w = 0) :
    encodeP (sext16 (xField w)) (sext16 (yField w)) (onField w) = w := by
  apply BitVec.eq_of_toNat_eq
  rw [opField_eq_iff] at hop
  rw [reservedField_eq_zero_iff] at hres
  rw [encodeP_toNat, sext16, sext16, BitVec.ofInt_toInt, BitVec.ofInt_toInt, xField_toNat, yField_toNat, onField_eq]
  change w.toNat / 2 ^ 60 = 1 at hop
  simp only [decide_eq_true_eq]
  split <;> omega

/-- A format Z word is its opcode followed by zeros (R75). -/
theorem eq_of_zeroField {w : Word64} {op : BitVec 4} (hop : opField w = op) (hz : zeroField w = 0) : w = op ++ 0#60 := by
  have happ := BitVec.extractLsb'_append_extractLsb' (w := 4) (len := 60) (x := w)
  rw [← happ]
  exact congrArg₂ (· ++ ·) hop hz

/-! ### The round trip -/

/-- Settles O2: the fields of a `SETPX` word are the ones the encoder wrote; the other commands have one word each. -/
theorem decodeOfEncodeIsTheCommand : Obligations.DecodeOfEncodeIsTheCommand := by
  unfold Obligations.DecodeOfEncodeIsTheCommand
  intro i hi
  cases i with
  | setpx x y on =>
    obtain ⟨hx, hy⟩ := hi
    simp [encode, decode, decodeP, sext16_ofInt hx, sext16_ofInt hy]
  | scan => decide
  | flush => decide
  | qdim => decide

/-- Settles O3: whichever row the word decodes by, its fields put together again are the word. -/
theorem encodeOfDecodeIsTheWord : Obligations.EncodeOfDecodeIsTheWord := by
  unfold Obligations.EncodeOfDecodeIsTheWord
  intro w i h
  have hcase := decode_cases w
  rw [h] at hcase
  cases hcase with
  | setpx hop hres => exact ⟨⟨coord16_sext16 _, coord16_sext16 _⟩, encodeP_fields hop hres⟩
  | scan hop hz => exact ⟨trivial, (eq_of_zeroField hop hz).symm⟩
  | flush hop hz => exact ⟨trivial, (eq_of_zeroField hop hz).symm⟩
  | qdim hop hz => exact ⟨trivial, (eq_of_zeroField hop hz).symm⟩

/-- The words that decode to a command: its encoding alone, if it has one (R86). -/
theorem decode_eq_command_iff {w : Word64} {i : Instr} : decode w = .command i ↔ i.WellFormed ∧ encode i = w :=
  ⟨encodeOfDecodeIsTheWord w i, fun ⟨hi, hw⟩ => hw ▸ decodeOfEncodeIsTheCommand i hi⟩

/-- Both directions for one word, from its command's encoding alone. -/
theorem encode_and_decode {i : Instr} {w : Word64} (hi : i.WellFormed) (hw : encode i = w) :
    encode i = w ∧ decode w = .command i := ⟨hw, decode_eq_command_iff.2 ⟨hi, hw⟩⟩

/-- Settles O1: each example is a well-formed command and its encoding. -/
theorem specExampleWordsDecode : Obligations.SpecExampleWordsDecode := by
  unfold Obligations.SpecExampleWordsDecode
  exact ⟨encode_and_decode (by decide) (by decide), encode_and_decode (by decide) (by decide),
    encode_and_decode (by decide) (by decide), encode_and_decode (by decide) (by decide),
    encode_and_decode (by decide) (by decide), encode_and_decode (by decide) (by decide)⟩

/-! ### The opcode table (R76) -/

/-- The mask of the `SETPX` row covers the bits of `OP` and the reserved bits. -/
theorem fields_of_setpx_mask {w : Word64} (h : w &&& 0xFFFFFFFE00000000#64 = 0x1000000000000000#64) :
    opField w = 0x1#4 ∧ reservedField w = 0 := by
  have hop : opField (w &&& 0xFFFFFFFE00000000#64) = opField w &&& BitVec.allOnes 4 := BitVec.extractLsb'_and
  have hres : reservedField (w &&& 0xFFFFFFFE00000000#64) = reservedField w &&& BitVec.allOnes 27 :=
    BitVec.extractLsb'_and
  rw [h, BitVec.and_allOnes] at hop hres
  exact ⟨hop.symm, hres.symm⟩

/-- Settles O4: the `SETPX` row fixes `OP` and the reserved bits, and each other row is its command's one word. -/
theorem opcodeTableRowsDecode : Obligations.OpcodeTableRowsDecode := by
  unfold Obligations.OpcodeTableRowsDecode
  intro w
  have oneWord {i : Instr} (hi : i.WellFormed) : w = encode i ↔ decode w = .command i := by
    rw [decode_eq_command_iff, eq_comm, and_iff_right hi]
  refine ⟨⟨fun h => ?_, fun ⟨x, y, on, h⟩ => ?_⟩, oneWord (i := .scan) trivial, oneWord (i := .flush) trivial,
    oneWord (i := .qdim) trivial⟩
  · obtain ⟨hop, hres⟩ := fields_of_setpx_mask h
    exact ⟨_, _, _, decode_eq_command_iff.2 ⟨⟨coord16_sext16 _, coord16_sext16 _⟩, encodeP_fields hop hres⟩⟩
  · obtain ⟨-, rfl⟩ := decode_eq_command_iff.1 h
    exact Laws.OpcodeRow.setpx x y on

/-! ### The `ILLEGAL` words (R77) -/

/-- The three conditions of R77, on the bits of the word. -/
theorem decode_illegal_iff (w : Word64) : (∃ why, decode w = .illegal why) ↔
    ((w.toNat / 2 ^ 60 = 0 ∨ 5 ≤ w.toNat / 2 ^ 60) ∨
      (w.toNat / 2 ^ 60 = 1 ∧ w.toNat / 2 ^ 33 % 2 ^ 27 ≠ 0) ∨
      ((w.toNat / 2 ^ 60 = 2 ∨ w.toNat / 2 ^ 60 = 3 ∨ w.toNat / 2 ^ 60 = 4) ∧ w.toNat % 2 ^ 60 ≠ 0)) := by
  rw [← opField_toNat, ← reservedField_toNat, ← zeroField_toNat]
  have hcase := decode_cases w
  generalize decode w = d at hcase
  cases hcase with
  | setpx hop h => simp [hop, h]
  | scan hop h => simp [hop, h]
  | flush hop h => simp [hop, h]
  | qdim hop h => simp [hop, h]
  | reservedBits hop h =>
    have hbits : (reservedField w).toNat ≠ 0 := fun e => h (BitVec.eq_of_toNat_eq e)
    exact iff_of_true ⟨_, rfl⟩ (.inr (.inl ⟨congrArg BitVec.toNat hop, hbits⟩))
  | operandBits hop h =>
    have hbits : (zeroField w).toNat ≠ 0 := fun e => h (BitVec.eq_of_toNat_eq e)
    have hops := hop.imp (congrArg BitVec.toNat) (Or.imp (congrArg BitVec.toNat) (congrArg BitVec.toNat))
    exact iff_of_true ⟨_, rfl⟩ (.inr (.inr ⟨hops, hbits⟩))
  | reservedOp h1 h2 h3 h4 =>
    have hop : (opField w).toNat = 0 ∨ 5 ≤ (opField w).toNat := by bv_omega
    exact iff_of_true ⟨_, rfl⟩ (.inl hop)

end Sys2Proof

namespace Sys2Proof.Machine

/-! ### The step of a command word -/

/-- A block between commands answers an `ILLEGAL` word that is its next input (R77). -/
theorem step_illegal {s : State} {w : Word64} {why : IllegalCause} {rest : List HostInput}
    (hl : s.life = .ready ∨ s.life = .dead) (hi : s.inputs = .command w :: rest) (hd : decode w = .illegal why) :
    step s = execIllegal (s.withInputs rest) := by
  rcases hl with hl | hl <;> simp only [step, hl, takeInput, hi, acceptWord, hd]

/-- What a ready block answers to an `ILLEGAL` word (R77, R80). -/
theorem execIllegal_ready {s : State} (h : s.life = .ready) :
    execIllegal s = .next { s with responses := s.responses ++ [0xF000000000000000#64] } := by
  rw [execIllegal, whenReady_ready h, respond_ready h, statusWord_illegalCommand]

/-- Settles O5: the conditions of R77 on the bits, and the one response of the command port. -/
theorem illegalWordIsAnsweredOnly : Obligations.IllegalWordIsAnsweredOnly := by
  unfold Obligations.IllegalWordIsAnsweredOnly
  refine fun w => ⟨decode_illegal_iff w, fun s rest hl hi ⟨why, hd⟩ => ?_⟩
  rw [step_illegal (.inl hl) hi hd]
  exact execIllegal_ready hl

/-- Settles O6: the command port consumes the word and runs its command. -/
theorem stepRunsTheDecodedCommand : Obligations.StepRunsTheDecodedCommand := by
  unfold Obligations.StepRunsTheDecodedCommand
  exact fun s w i rest hl hi hd => step_command (.inl hl) hi hd

/-- All 64 bits of a table word are the word's. -/
theorem tableWord_toNat (w : Word64) : tableWord 64 w.toNat = w := by
  rw [tableWord, Nat.mod_eq_of_lt w.isLt, BitVec.ofNat_toNat, BitVec.setWidth_eq]

/-- Settles O7: the placed word is the next input of a ready block, and the inputs after it are the ones before it was
placed. -/
theorem placedWordRunsNext : Obligations.PlacedWordRunsNext := by
  unfold Obligations.PlacedWordRunsNext
  intro s w i hd
  rw [State.withFetchWord, tableWord_toNat]
  exact step_command (s := presentWord w s) (.inl rfl) rfl hd

end Sys2Proof.Machine

/-! PROOFS. Reset with an accepted configuration word (`70_reset_and_hazards.md` R201, R203). -/

namespace Sys2Proof.Machine

/-! ### The fields of a configuration word (R82) -/

theorem sampleCfg_px (w : Word64) : (sampleCfg w).px.toNat = w.toNat % 2 ^ 10 := by
  simp [sampleCfg]

theorem sampleCfg_py (w : Word64) : (sampleCfg w).py.toNat = w.toNat / 2 ^ 10 % 2 ^ 11 := by
  simp [sampleCfg, Nat.shiftRight_eq_div_pow]

theorem sampleCfg_b0 (w : Word64) : (sampleCfg w).b0.toNat = w.toNat / 2 ^ 32 % 2 ^ 16 := by
  simp [sampleCfg, Nat.shiftRight_eq_div_pow]

/-- A bit of a word as a number. -/
theorem getLsbD_eq_true_iff (w : Word64) (n : Nat) : w.getLsbD n = true ↔ w.toNat / 2 ^ n % 2 = 1 := by
  simp [BitVec.getLsbD, Nat.testBit_eq_decide_div_mod_eq]

theorem sampleCfg_order (w : Word64) : (sampleCfg w).order = .desc ↔ w.toNat / 2 ^ 21 % 2 = 1 := by
  rw [← getLsbD_eq_true_iff]
  simp [sampleCfg]

theorem sampleCfg_strategy (w : Word64) : (sampleCfg w).strategy = .enable ↔ w.toNat / 2 ^ 22 % 2 = 1 := by
  rw [← getLsbD_eq_true_iff]
  simp [sampleCfg]

theorem sampleCfg_profile (w : Word64) : (sampleCfg w).profile = .transmitFirst ↔ w.toNat / 2 ^ 23 % 2 = 1 := by
  rw [← getLsbD_eq_true_iff]
  simp [sampleCfg]

theorem sampleCfg_mode (w : Word64) : (sampleCfg w).mode = .suspendable ↔ w.toNat / 2 ^ 24 % 2 = 1 := by
  rw [← getLsbD_eq_true_iff]
  simp [sampleCfg]

/-! ### The step of a reset -/

/-- A block between commands takes a reset that is its next input (R201). -/
theorem step_reset {s : State} {w : Word64} {rest : List HostInput} (hl : s.life = .ready ∨ s.life = .dead)
    (hi : s.inputs = .reset w :: rest) : step s = .next (applyReset w (s.withInputs rest)) := by
  rcases hl with hl | hl <;> simp only [step, hl, takeInput, hi]

/-- An accepted word sets the reset values and issues the construction request (R201, R204). -/
theorem applyReset_accepted {w : Word64} {s : State} (h : CfgAccepted s.fbCapBytes w) :
    applyReset w s = finishReset (resetState w s) := if_pos h

/-- The end of a reset writes none of `PHASE`, FB and the cache (R204). -/
theorem finishReset_registers (s : State) : (finishReset s).phase = s.phase ∧ (finishReset s).fb = s.fb ∧
    (finishReset s).cache = s.cache := by
  have hcase := finishReset_cases s
  generalize finishReset s = t at hcase
  cases hcase <;> exact ⟨rfl, rfl, rfl⟩

/-- Settles O52: an accepted word's reset values are set before the construction request, whose answer writes none of
them. -/
theorem resetSetsTheResetValues : Obligations.ResetSetsTheResetValues := by
  unfold Obligations.ResetSetsTheResetValues
  intro s w rest hl hi hacc
  refine ⟨_, (step_reset hl hi).trans (congrArg _ (applyReset_accepted hacc)), ?_⟩
  obtain ⟨hcfg, hbright, -⟩ := finishReset_frame (resetState w (s.withInputs rest))
  obtain ⟨hphase, hfb, hcache⟩ := finishReset_registers (resetState w (s.withInputs rest))
  rw [hcfg, hbright, hphase, hcache]
  refine ⟨sampleCfg_px w, sampleCfg_py w, sampleCfg_order w, sampleCfg_strategy w, sampleCfg_profile w, sampleCfg_mode w,
    sampleCfg_b0 w, rfl, resetBright_eq _, fun a ha => ?_, resetState_cache_length w _⟩
  rw [memRead_inside (hcfg ▸ ha), hfb]
  rfl

/-- Settles O56: R82's example word is accepted, and the construction request takes the answer `OK`. -/
theorem resetStateIsTheExampleConfiguration : Obligations.ResetStateIsTheExampleConfiguration := by
  unfold Obligations.ResetStateIsTheExampleConfiguration
  rw [step_reset (.inl rfl) rfl, applyReset_accepted (by decide)]
  rfl

end Sys2Proof.Machine

/-! PROOFS. The pixel mapper (`40_pixel_addressing.md` R98 to R102): its domain, its range, its inverse and the widths of
its values. -/

namespace Sys2Proof.Machine

/-! ### The inverse (R101) -/

/-- The pixels that `MAP` sends to a byte and bit of FB: the one that the inverse gives (R101). -/
theorem mapPixel_eq_some_iff {c : Cfg} {a b : Nat} (ha : a < fbBytes c) (hb : b < 8) {x y : Int} :
    mapPixel c x y = some (a, bitMask b) ↔ x = (unmapPixel c a b).1 ∧ y = (unmapPixel c a b).2 := by
  have himage := mapPixel_unmapPixel ha hb
  constructor
  · intro h
    exact mapPixel_injective h himage
  · rintro ⟨rfl, rfl⟩
    exact himage

/-- Settles O19: R101's formulas are the model's inverse of `MAP`, written out. -/
theorem mapInverseFormula : Obligations.MapInverseFormula := by
  unfold Obligations.MapInverseFormula
  exact fun c a b ha hb x y => mapPixel_eq_some_iff ha hb

/-! ### The domain (R98) and the bijection (R99) -/

/-- Settles O21: `MAP` answers none exactly at a coordinate that is out of bounds. -/
theorem mapIsUndefinedOutsideItsDomain : Obligations.MapIsUndefinedOutsideItsDomain := by
  unfold Obligations.MapIsUndefinedOutsideItsDomain
  intro c x y
  rw [← Option.ne_none_iff_isSome, Ne, mapPixel_eq_none, not_not]

/-- An in-bounds coordinate has a byte of FB and a bit of it as its image (R99). -/
theorem mapPixel_inBounds {c : Cfg} {x y : Int} (h : InBounds c x y) :
    ∃ a b, a < fbBytes c ∧ b < 8 ∧ mapPixel c x y = some (a, bitMask b) := by
  obtain ⟨⟨a, m⟩, hmap⟩ := Option.isSome_iff_exists.1 ((mapIsUndefinedOutsideItsDomain c x y).2 h)
  obtain ⟨u, v, -, -, -, -, -, rfl⟩ := mapPixel_some hmap
  exact ⟨a, _, mapPixel_lt hmap, bitPos_lt c u v, hmap⟩

/-- Settles O18: the coordinate of a byte and bit, and its uniqueness, are the two directions of the inverse. -/
theorem mapIsABijection : Obligations.MapIsABijection := by
  unfold Obligations.MapIsABijection
  refine fun c => ⟨fun x y h => mapPixel_inBounds h, fun a b ha hb => ?_⟩
  exact ⟨_, _, mapPixel_unmapPixel ha hb, fun x' y' => (mapPixel_eq_some_iff ha hb).1⟩

/-! ### The last pixel (R100) -/

section
variable {c : Cfg} (hpx : 0 < c.px.toNat) (hpy : 0 < c.py.toNat)
include hpx hpy

/-- The last pixel of a non-empty grid is in the last panel (R92). -/
theorem panelIndex_last : panelIndex c (displayWidth c - 1) (displayHeight c - 1) = panelCount c - 1 := by
  have hcol : (c.px.toNat * 32 - 1) / 32 = c.px.toNat - 1 := by omega
  have hrow : (c.py.toNat * 16 - 1) / 16 = c.py.toNat - 1 := by omega
  have hle : c.px.toNat ≤ c.px.toNat * c.py.toNat := Nat.le_mul_of_pos_right _ hpy
  unfold panelIndex displayWidth displayHeight panelCount
  rw [hcol, hrow, Nat.mul_sub_one]
  omega

theorem panelCount_pos : 0 < panelCount c := Nat.mul_pos hpx hpy

/-- The last pixel of a non-empty grid has the largest chain x (R93). -/
theorem chainX_last : chainX c (displayWidth c - 1) (displayHeight c - 1) = 32 * panelCount c - 1 := by
  have hpos := panelCount_pos hpx hpy
  have hcol : (displayWidth c - 1) % 32 = 31 := by unfold displayWidth; omega
  rw [chainX, panelIndex_last hpx hpy, hcol]
  omega

/-- The last pixel of a non-empty grid has the last byte of FB (R100). -/
theorem byteAddr_last : byteAddr c (displayWidth c - 1) (displayHeight c - 1) = fbBytes c - 1 := by
  have hpos := panelCount_pos hpx hpy
  have hrow : panelRow (displayHeight c - 1) = 15 := by unfold panelRow displayHeight; omega
  rw [byteAddr, chainX_last hpx hpy, hrow, fbBytes, rowStride]
  omega

/-- The last pixel of a non-empty grid has bit 0 of its byte (R100). -/
theorem bitPos_last : bitPos c (displayWidth c - 1) (displayHeight c - 1) = 0 := by
  have hpos := panelCount_pos hpx hpy
  rw [bitPos, chainX_last hpx hpy]
  omega

end

/-- Settles O20: the range is the inside of FB, and the last pixel's chain x is the largest one, in the last row. -/
theorem mapRange : Obligations.MapRange := by
  unfold Obligations.MapRange
  refine fun c => ⟨fun x y a m h => ⟨Nat.le_sub_one_of_lt (mapPixel_lt h), rfl⟩, fun hpx hpy => ?_⟩
  have hpx := BitVec.toNat_pos_of_ne_zero hpx
  have hpy := BitVec.toNat_pos_of_ne_zero hpy
  have hx : displayWidth c - 1 < displayWidth c := by unfold displayWidth; omega
  have hy : displayHeight c - 1 < displayHeight c := by unfold displayHeight; omega
  rw [mapPixel_nat hx hy, byteAddr_last hpx hpy, bitPos_last hpx hpy]
  rfl

/-! ### The widths of the mapper's values (R102) -/

/-- The `PX` and `PY` fields hold at most 1023 and 2047 (R6). -/
theorem panelCount_le (c : Cfg) : panelCount c ≤ 1023 * 2047 :=
  Nat.mul_le_mul (Nat.le_of_lt_succ c.px.isLt) (Nat.le_of_lt_succ c.py.isLt)

/-- Settles O22: the chain x stays below `32 * NP` and the address inside FB, and the fields bound `NP`. -/
theorem mapFitsThirtyTwoBits : Obligations.MapFitsThirtyTwoBits := by
  unfold Obligations.MapFitsThirtyTwoBits
  intro c x y hx hy
  have hNP := panelCount_le c
  have hchain := chainX_lt hx hy
  have haddr := byteAddr_lt hx hy
  have hFB : fbBytes c = 64 * panelCount c := by unfold fbBytes rowStride; omega
  exact ⟨hchain, by omega, haddr, by omega⟩

end Sys2Proof.Machine

/-! PROOFS. The framebuffer commands (`41_framebuffer.md`): what `SETPX` does to FB, said once bit by bit, and from it the
locality, the overwriting and the batch draw; then `QDIM`, and that no other command writes FB. -/

namespace Sys2Proof.Machine

/-! ### The bits of FB -/

/-- Bit `b` of byte `a` of FB (R91). -/
def Memory.bit (m : Memory) (a b : Nat) : Bool := (Memory.read m a).getLsbD b

/-- Two memories in canonical form with the same bits are equal. -/
theorem Memory.ext_of_bits {m n : Memory} (hm : Memory.wf m) (hn : Memory.wf n)
    (h : ∀ a b, b < 8 → Memory.bit m a b = Memory.bit n a b) : m = n :=
  Memory.ext_of_wf hm hn fun a => BitVec.eq_of_getLsbD_eq (h a)

/-- A one-hot mask keeps the one bit of its position (R96). -/
theorem and_bitMask (v : Byte) (b : Nat) : v &&& bitMask b = if v.getLsbD b then bitMask b else 0 := by
  rw [bitMask, ← BitVec.twoPow_eq, BitVec.and_twoPow]
  rfl

theorem bitMask_ne_zero {b : Nat} (hb : b < 8) : bitMask b ≠ 0#8 := by
  interval_cases b <;> decide

/-- The pixel of a one-hot mask is lit if its bit is cleared (R27, R108). -/
theorem and_bitMask_beq_zero (v : Byte) {b : Nat} (hb : b < 8) : (v &&& bitMask b == 0) = !v.getLsbD b := by
  rw [and_bitMask]
  cases v.getLsbD b <;> simp [bitMask_ne_zero hb]

/-- The one bit of a one-hot mask (R96). -/
theorem getLsbD_bitMask {i : Nat} (hi : i < 8) (b : Nat) : (bitMask b).getLsbD i = decide (i = b) := by
  rw [bitMask, ← BitVec.twoPow_eq, BitVec.getLsbD_twoPow]
  by_cases h : i = b
  · subst h
    simp [hi]
  · simp [h, Ne.symm h]

/-- A `SETPX` on one bit of a byte clears it for lit, sets it for dark, and keeps the others (R106, R108). -/
theorem getLsbD_pixelByte (on : Bool) (v : Byte) {b i : Nat} (hi : i < 8) :
    (pixelByte on (bitMask b) v).getLsbD i = if i = b then !on else v.getLsbD i := by
  unfold pixelByte
  cases on with
  | false =>
    simp only [Bool.false_eq_true, if_false, BitVec.getLsbD_or, getLsbD_bitMask hi]
    by_cases h : i = b <;> simp [h]
  | true =>
    simp only [if_true, BitVec.getLsbD_and, BitVec.getLsbD_not, getLsbD_bitMask hi]
    by_cases h : i = b <;> simp [h, hi]

/-! ### A pixel draw -/

/-- A draw out of bounds leaves FB (R107). -/
theorem drawPoint_outside {c : Cfg} {p : Int × Int × Bool} (h : mapPixel c p.1 p.2.1 = none) (m : Memory) :
    drawPoint c m p = m := by
  simp only [drawPoint, h]

/-- A draw in bounds writes the byte of its pixel (R106). -/
theorem drawPoint_inside {c : Cfg} {x y : Int} {a : Nat} {k : Byte} (h : mapPixel c x y = some (a, k)) (on : Bool)
    (m : Memory) : drawPoint c m (x, y, on) = Memory.write m a (pixelByte on k (Memory.read m a)) := by
  simp only [drawPoint, h, pixelByte]

theorem Memory.wf_drawPoint {m : Memory} (h : Memory.wf m) (c : Cfg) (p : Int × Int × Bool) :
    Memory.wf (drawPoint c m p) := by
  unfold drawPoint
  split
  · exact h
  · exact Memory.wf_write h _ _

/-- The mask that `MAP` gives is one-hot (R96). -/
theorem mapPixel_mask {c : Cfg} {x y : Int} {a : Nat} {k : Byte} (h : mapPixel c x y = some (a, k)) :
    ∃ b, b < 8 ∧ k = bitMask b := by
  obtain ⟨x', y', -, -, -, -, -, hk⟩ := mapPixel_some h
  exact ⟨_, bitPos_lt c x' y', hk⟩

/-- What a draw does to FB (R106, R107, R109): it decides the bit that `MAP` gives for its pixel and keeps every other. -/
theorem bit_drawPoint {m : Memory} (hm : Memory.wf m) (c : Cfg) (x y : Int) (on : Bool) (a : Nat) {b : Nat} (hb : b < 8) :
    Memory.bit (drawPoint c m (x, y, on)) a b = if mapPixel c x y = some (a, bitMask b) then !on else Memory.bit m a b := by
  rcases hmap : mapPixel c x y with _ | ⟨a', k⟩
  · rw [drawPoint_outside hmap]
    rfl
  · obtain ⟨b', hb', rfl⟩ := mapPixel_mask hmap
    have hmask : bitMask b' = bitMask b ↔ b = b' := ⟨fun h => (bitMask_injective hb' hb h).symm, fun h => h ▸ rfl⟩
    rw [drawPoint_inside hmap, Memory.bit, Memory.read_write hm]
    by_cases ha : a = a'
    · subst ha
      simp [getLsbD_pixelByte on _ hb, hmask, Memory.bit]
    · simp [ha, Ne.symm ha, Memory.bit]

/-- Of two draws on one pixel the later one decides (R109). -/
theorem drawPoint_drawPoint_same {m : Memory} (hm : Memory.wf m) (c : Cfg) (x y : Int) (on on' : Bool) :
    drawPoint c (drawPoint c m (x, y, on)) (x, y, on') = drawPoint c m (x, y, on') := by
  have hdrawn := Memory.wf_drawPoint hm c (x, y, on)
  refine Memory.ext_of_bits (Memory.wf_drawPoint hdrawn _ _) (Memory.wf_drawPoint hm _ _) fun a b hb => ?_
  rw [bit_drawPoint hdrawn _ _ _ _ _ hb, bit_drawPoint hm _ _ _ _ _ hb, bit_drawPoint hm _ _ _ _ _ hb]
  split <;> rfl

/-- Draws on distinct pixels commute (R109): `MAP` gives no bit to two pixels (R99). -/
theorem drawPoint_comm {m : Memory} (hm : Memory.wf m) (c : Cfg) {x y x' y' : Int} (hne : (x', y') ≠ (x, y))
    (on on' : Bool) :
    drawPoint c (drawPoint c m (x, y, on)) (x', y', on') = drawPoint c (drawPoint c m (x', y', on')) (x, y, on) := by
  have hwf (p) := Memory.wf_drawPoint hm c p
  refine Memory.ext_of_bits (Memory.wf_drawPoint (hwf _) _ _) (Memory.wf_drawPoint (hwf _) _ _) fun a b hb => ?_
  simp only [bit_drawPoint (hwf _) _ _ _ _ _ hb, bit_drawPoint hm _ _ _ _ _ hb]
  by_cases h : mapPixel c x y = some (a, bitMask b)
  · have h' : mapPixel c x' y' ≠ some (a, bitMask b) := fun h' => hne (Prod.ext_iff.2 (mapPixel_injective h' h))
    simp [h, h']
  · simp [h]

/-! ### Pixels -/

/-- A pixel is lit if its bit of FB is cleared (R27, R108). -/
theorem pixelLit_eq {s : State} {x y : Int} {a b : Nat} (hb : b < 8) (h : mapPixel s.cfg x y = some (a, bitMask b)) :
    pixelLit s x y = some (!Memory.bit s.fb a b) := by
  simp only [pixelLit, h, Option.map_some, and_bitMask_beq_zero _ hb, Memory.bit]

/-- A draw of a pixel that has that state already leaves FB (R110). -/
theorem drawPoint_of_pixelLit {s : State} (hm : Memory.wf s.fb) {x y : Int} {on : Bool}
    (h : pixelLit s x y = some on) : drawPoint s.cfg s.fb (x, y, on) = s.fb := by
  refine Memory.ext_of_bits (Memory.wf_drawPoint hm _ _) hm fun a b hb => ?_
  rw [bit_drawPoint hm _ _ _ _ _ hb]
  split
  · rename_i hmap
    simpa [pixelLit_eq hb hmap, eq_comm] using h
  · rfl

/-- An in-bounds draw gives its pixel the state asked for (R106, R109). -/
theorem pixelLit_drawPoint_same {s t : State} (hm : Memory.wf s.fb) {x y : Int} {on : Bool} (hb : InBounds s.cfg x y)
    (hc : t.cfg = s.cfg) (hf : t.fb = drawPoint s.cfg s.fb (x, y, on)) : pixelLit t x y = some on := by
  obtain ⟨a, b, -, hb8, hmap⟩ := mapPixel_inBounds hb
  rw [pixelLit_eq hb8 (hc ▸ hmap), hf, bit_drawPoint hm _ _ _ _ _ hb8, if_pos hmap, Bool.not_not]

/-- A draw leaves every other pixel (R109). -/
theorem pixelLit_drawPoint_other {s t : State} (hm : Memory.wf s.fb) {x y x' y' : Int} {on : Bool}
    (hne : (x', y') ≠ (x, y)) (hc : t.cfg = s.cfg) (hf : t.fb = drawPoint s.cfg s.fb (x, y, on)) :
    pixelLit t x' y' = pixelLit s x' y' := by
  rcases hmap : mapPixel s.cfg x' y' with _ | ⟨a, k⟩
  · simp [pixelLit, hc, hmap]
  · obtain ⟨b, hb, rfl⟩ := mapPixel_mask hmap
    have hother : mapPixel s.cfg x y ≠ some (a, bitMask b) := fun h => hne (Prod.ext_iff.2 (mapPixel_injective hmap h))
    rw [pixelLit_eq hb (hc ▸ hmap), pixelLit_eq hb hmap, hf, bit_drawPoint hm _ _ _ _ _ hb, if_neg hother]

/-! ### `SETPX` and lists of it -/

/-- The command of an element of a batch draw (R84). -/
def drawCommand (p : Int × Int × Bool) : Instr := .setpx p.1 p.2.1 p.2.2

/-- What a ready block does with a `SETPX`, in bounds or not (R106, R107). -/
theorem exec_drawCommand {s : State} (h : s.life = .ready) (p : Int × Int × Bool) :
    exec (drawCommand p) s = .next
      { s with fb := drawPoint s.cfg s.fb p, responses := s.responses ++ [0x0000000000000000#64] } := by
  rcases hmap : mapPixel s.cfg p.1 p.2.1 with _ | ⟨a, k⟩
  · rw [drawPoint_outside hmap]
    exact exec_setpx_outside h hmap
  · rw [drawPoint_inside hmap p.2.2]
    exact exec_setpx_inside h hmap

theorem runCommands_cons {i : Instr} {s t : State} (h : exec i s = .next t) (is : List Instr) :
    runCommands (i :: is) s = runCommands is t := by
  simp only [runCommands, h]

/-- A list of `SETPX` draws its elements in order, with one `OK` for each (R111). -/
theorem runCommands_drawCommands : ∀ (ps : List (Int × Int × Bool)) {s : State}, s.life = .ready →
    runCommands (ps.map drawCommand) s = .next
      { s with
        fb := ps.foldl (drawPoint s.cfg) s.fb
        responses := s.responses ++ List.replicate ps.length 0x0000000000000000#64 }
  | [], s, _ => by simp [runCommands]
  | p :: ps, s, h => by
    rw [List.map_cons, runCommands_cons (exec_drawCommand h p), runCommands_drawCommands ps (by exact h)]
    simp [List.replicate_succ]

/-- Settles O14: the draw decides one bit of FB, which `MAP` gives to no other pixel. -/
theorem setpxChangesOnlyItsPixel : Obligations.SetpxChangesOnlyItsPixel := by
  unfold Obligations.SetpxChangesOnlyItsPixel
  intro s x y on hl hm hb
  refine ⟨_, exec_drawCommand hl (x, y, on), pixelLit_drawPoint_same hm hb rfl rfl,
    fun x' y' hne => pixelLit_drawPoint_other hm hne rfl rfl, fun x' y' on' hne => ?_, fun on' => ?_⟩
  · have hrun := runCommands_drawCommands [(x, y, on), (x', y', on')] hl
    have hrun' := runCommands_drawCommands [(x', y', on'), (x, y, on)] hl
    simp only [List.foldl_cons, drawPoint_comm hm s.cfg hne on on'] at hrun
    exact hrun.trans hrun'.symm
  · exact ⟨_, _, exec_drawCommand (by exact hl) (x, y, on'), exec_drawCommand hl (x, y, on'),
      drawPoint_drawPoint_same hm s.cfg x y on on'⟩

/-- Settles O15: the second draw decides, and a draw of what the pixel holds changes nothing. -/
theorem setpxRoundTrip : Obligations.SetpxRoundTrip := by
  unfold Obligations.SetpxRoundTrip
  intro s x y on hl hm
  constructor
  · intro hlit
    refine ⟨_, runCommands_drawCommands [(x, y, on), (x, y, !on)] hl, ?_⟩
    exact (drawPoint_drawPoint_same hm s.cfg x y on (!on)).trans (drawPoint_of_pixelLit hm hlit)
  · intro hlit
    exact ⟨_, exec_drawCommand hl (x, y, on), drawPoint_of_pixelLit hm hlit⟩

/-! ### The batch draw -/

/-- The display is no larger than the coordinates of a command word reach (R6, R74). -/
theorem InBounds.coord16 {c : Cfg} {x y : Int} (h : InBounds c x y) : Coord16 x ∧ Coord16 y := by
  obtain ⟨⟨hx0, hx⟩, hy0, hy⟩ := h
  have hpx := c.px.isLt
  have hpy := c.py.isLt
  unfold displayWidth at hx
  unfold displayHeight at hy
  omega

/-- An element without an encoding is out of bounds, so its draw leaves FB (R84, R107). -/
theorem drawPoint_of_not_wellFormed {p : Int × Int × Bool} (h : ¬ (drawCommand p).wellFormed) (c : Cfg) (m : Memory) :
    drawPoint c m p = m := by
  refine drawPoint_outside (mapPixel_eq_none.2 fun hb => h ?_) m
  simpa [drawCommand, Instr.wellFormed] using hb.coord16

/-- The elements that the assembler drops change nothing (R84). -/
theorem foldl_drawPoint_filter (c : Cfg) (ps : List (Int × Int × Bool)) (m : Memory) :
    (ps.filter fun p => (drawCommand p).wellFormed).foldl (drawPoint c) m = ps.foldl (drawPoint c) m := by
  rw [List.foldl_filter]
  congr 1
  funext m p
  split
  · rfl
  · exact (drawPoint_of_not_wellFormed ‹_› c m).symm

/-- The commands of a batch draw are those of its elements that have an encoding (R84). -/
theorem expandLine_draw (ps : List (Int × Int × Bool)) :
    expandLine (.draw ps) = (ps.filter fun p => (drawCommand p).wellFormed).map drawCommand :=
  List.filter_map

/-- Settles O16: the commands that are issued draw their elements in order, and the dropped ones would draw nothing. -/
theorem drawAppliesItsElements : Obligations.DrawAppliesItsElements := by
  unfold Obligations.DrawAppliesItsElements
  intro s ps hl
  rw [expandLine_draw, runCommands_drawCommands _ hl, foldl_drawPoint_filter, List.length_map]

/-! ### One `SETPX`, one `QDIM` -/

/-- The mask of a pixel counts its bit from the most significant one (R96). -/
theorem bitMask_from_msb {n : Nat} (h : n < 8) : bitMask (7 - n) = 0x80#8 >>> n := by
  interval_cases n <;> decide

/-- The row stride as the product of R13. -/
theorem rowStride_eq (c : Cfg) : rowStride c = 4 * c.px.toNat * c.py.toNat := (Nat.mul_assoc _ _ _).symm

/-- `MAP` with the formulas of R92 to R96 written out. -/
theorem mapPixel_formula {c : Cfg} {x y : Nat} (hx : x < displayWidth c) (hy : y < displayHeight c) :
    mapPixel c x y = some
      ((x % 32 + (x / 32 + c.px.toNat * (y / 16)) * 32) / 8 + y % 16 * (4 * c.px.toNat * c.py.toNat),
        0x80#8 >>> ((x % 32 + (x / 32 + c.px.toNat * (y / 16)) * 32) % 8)) := by
  rw [mapPixel_nat hx hy, bitPos, bitMask_from_msb (Nat.mod_lt _ (by decide)), byteAddr, rowStride_eq]
  rfl

/-- Settles O11: in bounds, the read-modify-write is at the address and mask of R92 to R96. -/
theorem setpxWritesItsPixel : Obligations.SetpxWritesItsPixel := by
  unfold Obligations.SetpxWritesItsPixel
  intro s x y on hl hx hy
  exact exec_setpx_inside hl (mapPixel_formula hx hy)

/-- Settles O12: a coordinate that is not in bounds has no image under `MAP`, and nothing is drawn. -/
theorem setpxClipsOutOfBounds : Obligations.SetpxClipsOutOfBounds := by
  unfold Obligations.SetpxClipsOutOfBounds
  intro s x y on hl hout
  exact exec_setpx_outside hl (mapPixel_eq_none.2 fun hb => hout (and_assoc.1 hb))

/-- Settles O17: 16 bits hold each dimension of every geometry, so the payload is the number `HEIGHT * 2^16 + WIDTH`. -/
theorem qdimAnswersTheDimensions : Obligations.QdimAnswersTheDimensions := by
  unfold Obligations.QdimAnswersTheDimensions
  exact fun s hl => exec_qdim hl

/-! ### Who writes FB -/

/-- Settles O40: of the six ways a step comes to a next state, only a `SETPX` word and a reset write FB. -/
theorem onlySetpxWritesFramebuffer : Obligations.OnlySetpxWritesFramebuffer := by
  unfold Obligations.OnlySetpxWritesFramebuffer
  intro s t hreset hs hfb
  cases step_next hs with
  | idle => exact absurd rfl hfb
  | drew w rest x y on hl hi hd => exact ⟨hl, w, rest, x, y, on, hi, hd⟩
  | answered rest w _ => exact absurd rfl hfb
  | ran job is _ _ hrun =>
    obtain ⟨-, -, hkept, -⟩ := resume_frame hrun
    exact absurd hkept hfb
  | reset w rest hl hi => exact absurd ⟨hl, w, rest, hi⟩ hreset
  | finishing _ =>
    obtain ⟨-, hkept, -⟩ := finishReset_registers s
    exact absurd hkept hfb

end Sys2Proof.Machine

/-! PROOFS. The scan cache builder (`42_scan_cache.md`): the row group's bytes by group and position, the addresses a
build reads, and the pixels they hold. -/

namespace Sys2Proof.Machine

/-! ### The rows of a group (R122) -/

theorem groupRow_mod (o : RowOrder) (p : BitVec 2) (k : Nat) : groupRow o p k % 4 = p.toNat := by
  have := p.isLt
  cases o <;> simp only [groupRow] <;> omega

theorem groupRow_injective (o : RowOrder) (p : BitVec 2) {k k' : Nat} (hk : k < 4) (hk' : k' < 4)
    (h : groupRow o p k = groupRow o p k') : k = k' := by
  cases o <;> simp only [groupRow] at h <;> omega

/-- Every unified row that is `p` modulo 4 stands in the group of phase `p` (R124). -/
theorem exists_groupRow (o : RowOrder) {p : BitVec 2} {r : Nat} (hr : r < 16) (hp : r % 4 = p.toNat) :
    ∃ k < 4, groupRow o p k = r := by
  cases o with
  | asc => exact ⟨r / 4, by omega, by simp only [groupRow]; omega⟩
  | desc => exact ⟨3 - r / 4, by omega, by simp only [groupRow]; omega⟩

/-! ### The bytes of a build by group and position (R121) -/

theorem cacheSource_group (c : Cfg) (p : BitVec 2) (i : Nat) {k : Nat} (hk : k < 4) :
    cacheSource c p (4 * i + k) = groupRow c.order p k * rowStride c + i := by
  rw [cacheSource, show (4 * i + k) % 4 = k by omega, show (4 * i + k) / 4 = i by omega]

theorem group_lt_cacheBytes {c : Cfg} {i k : Nat} (hi : i < rowStride c) (hk : k < 4) : 4 * i + k < cacheBytes c := by
  unfold cacheBytes; omega

theorem rowGroupBytes_group (s : State) (p : BitVec 2) {i k : Nat} (hi : i < rowStride s.cfg) (hk : k < 4) :
    (rowGroupBytes s p)[4 * i + k]? = some (Memory.read s.fb (groupRow s.cfg.order p k * rowStride s.cfg + i)) := by
  rw [rowGroupBytes_get p (group_lt_cacheBytes hi hk), cacheSource_group _ _ _ hk]

theorem buildAddrs_group (c : Cfg) (p : BitVec 2) {i k : Nat} (hi : i < rowStride c) (hk : k < 4) :
    (buildAddrs c p)[4 * i + k]? = some (groupRow c.order p k * rowStride c + i) := by
  rw [buildAddrs_eq, List.getElem?_map, List.getElem?_range (group_lt_cacheBytes hi hk), Option.map_some,
    cacheSource_group _ _ _ hk]

/-- Settles O23: the build is the row group's bytes, and `rowsel` names the row of each position. -/
theorem buildCopiesTheRowGroup : Obligations.BuildCopiesTheRowGroup := by
  unfold Obligations.BuildCopiesTheRowGroup
  refine fun s p => ⟨_, buildCache_eq s p, rowGroupBytes_length s p, fun i k hi hk => ?_⟩
  rw [rowGroupBytes_group s p hi hk, ← rowSel_eq_groupRow _ _ hk]
  rfl

/-! ### What a build depends on (R128, R129) -/

/-- Two builds of one phase agree if `ORDER`, `RS` and the bytes of FB do (R129). -/
theorem rowGroupBytes_eq_of_reads {s t : State} (p : BitVec 2) (horder : s.cfg.order = t.cfg.order)
    (hstride : rowStride s.cfg = rowStride t.cfg)
    (hread : ∀ a, a < fbBytes s.cfg → Memory.read s.fb a = Memory.read t.fb a) : rowGroupBytes s p = rowGroupBytes t p := by
  have hsource (n : Nat) : cacheSource s.cfg p n = cacheSource t.cfg p n := by rw [cacheSource, cacheSource, horder, hstride]
  have hbytes : cacheBytes s.cfg = cacheBytes t.cfg := by rw [cacheBytes, cacheBytes, hstride]
  rw [rowGroupBytes, rowGroupBytes, ← hbytes]
  refine List.map_congr_left fun n hn => ?_
  rw [← hsource, hread _ (cacheSource_lt p (List.mem_range.1 hn))]

/-- Settles O27: in each state the build is the row group's bytes, which only `ORDER`, `RS` and FB decide. -/
theorem buildCarriesNoState : Obligations.BuildCarriesNoState := by
  unfold Obligations.BuildCarriesNoState
  intro s t p horder hstride hread
  rw [buildCache_eq, buildCache_eq, rowGroupBytes_eq_of_reads p horder hstride hread]

/-- Settles O26: every cache byte is an FB byte (R121), and all of those are equal. -/
theorem buildOfUniformFramebuffer : Obligations.BuildOfUniformFramebuffer := by
  unfold Obligations.BuildOfUniformFramebuffer
  intro s p v hv
  rw [buildCache_eq, Option.some_inj]
  refine List.eq_replicate_iff.2 ⟨rowGroupBytes_length s p, fun b hb => ?_⟩
  obtain ⟨n, hn, rfl⟩ := List.mem_map.1 hb
  exact hv _ (cacheSource_lt p (List.mem_range.1 hn))

/-! ### The addresses of a build (R122, R124) -/

theorem cacheSource_row_col {c : Cfg} (p : BitVec 2) {n : Nat} (hn : n < cacheBytes c) :
    cacheSource c p n / rowStride c = groupRow c.order p (n % 4) ∧ cacheSource c p n % rowStride c = n / 4 := by
  rw [cacheSource, Nat.add_comm]
  exact row_col_of_addr (by unfold cacheBytes at hn; omega)

/-- No two cache indices have one source: the address gives the group by its column and the position by its row. -/
theorem cacheSource_injective {c : Cfg} (p : BitVec 2) {m n : Nat} (hm : m < cacheBytes c) (hn : n < cacheBytes c)
    (h : cacheSource c p m = cacheSource c p n) : m = n := by
  obtain ⟨hrow, hcol⟩ := cacheSource_row_col p hm
  obtain ⟨hrow', hcol'⟩ := cacheSource_row_col p hn
  have hgroup : m / 4 = n / 4 := by rw [← hcol, ← hcol', h]
  have hpos : m % 4 = n % 4 :=
    groupRow_injective c.order p (Nat.mod_lt _ (by decide)) (Nat.mod_lt _ (by decide)) (by rw [← hrow, ← hrow', h])
  omega

theorem nodup_buildAddrs (c : Cfg) (p : BitVec 2) : (buildAddrs c p).Nodup := by
  rw [buildAddrs_eq]
  exact List.nodup_range.map_on fun m hm n hn => cacheSource_injective p (List.mem_range.1 hm) (List.mem_range.1 hn)

/-- A build of phase `p` reads the bytes of the unified rows that are `p` modulo 4 (R124). -/
theorem mem_buildAddrs_iff {c : Cfg} {p : BitVec 2} {a : Nat} :
    a ∈ buildAddrs c p ↔ a < fbBytes c ∧ a / rowStride c % 4 = p.toNat := by
  constructor
  · rw [buildAddrs_eq, List.mem_map]
    rintro ⟨n, hn, rfl⟩
    have hn := List.mem_range.1 hn
    obtain ⟨hrow, -⟩ := cacheSource_row_col p hn
    exact ⟨cacheSource_lt p hn, by rw [hrow, groupRow_mod]⟩
  · rintro ⟨ha, hp⟩
    have hstride : 0 < rowStride c := by unfold fbBytes at ha; omega
    obtain ⟨k, hk, hrow⟩ := exists_groupRow c.order ((Nat.div_lt_iff_lt_mul hstride).2 ha) hp
    have hget := buildAddrs_group c p (Nat.mod_lt a hstride) hk
    rw [hrow, Nat.div_add_mod'] at hget
    exact List.mem_of_getElem? hget

theorem count_buildAddrs (c : Cfg) (p : BitVec 2) (a : Nat) :
    (buildAddrs c p).count a = if a < fbBytes c ∧ a / rowStride c % 4 = p.toNat then 1 else 0 := by
  simp only [(nodup_buildAddrs c p).count, mem_buildAddrs_iff]

/-- Settles O24: each address's row has one residue modulo 4, so exactly one of the four phases reads it. -/
theorem buildsReadEveryByteOnce : Obligations.BuildsReadEveryByteOnce := by
  unfold Obligations.BuildsReadEveryByteOnce
  refine fun c => ⟨count_buildAddrs c, List.perm_iff_count.2 fun a => ?_⟩
  simp only [List.count_append, count_buildAddrs, List.nodup_range.count, List.mem_range]
  have hresidue : a / rowStride c % 4 < 4 := Nat.mod_lt _ (by decide)
  generalize a / rowStride c % 4 = r at hresidue
  by_cases ha : a < fbBytes c
  · interval_cases r <;> simp [ha]
  · simp [ha]

/-- Settles O28: position `k` of a `DESC` group is the row of position `3 - k` of the `ASC` group, and how often a build
reads an address does not depend on `ORDER`. -/
theorem descReversesEachGroup : Obligations.DescReversesEachGroup := by
  unfold Obligations.DescReversesEachGroup
  refine fun c p i k hi hk => ⟨?_, List.perm_iff_count.2 fun a => ?_⟩
  · rw [buildAddrs_group { c with order := .desc } p hi hk, buildAddrs_group { c with order := .asc } p hi (by omega)]
    rfl
  · rw [count_buildAddrs, count_buildAddrs]
    rfl

/-! ### The pixels of a panel's bytes (R127) -/

theorem panelByte_lt {c : Cfg} {q i : Nat} (hq : q < panelCount c) (hi : i < 4) : 4 * q + i < rowStride c := by
  unfold rowStride; omega

/-- The pixel of row `r`, byte column `i` of panel `q`, counted from the most significant bit (R101, R127). -/
theorem unmapPixel_panel {c : Cfg} {q i r n : Nat} (hq : q < panelCount c) (hi : i < 4) (hn : n < 8) :
    unmapPixel c (r * rowStride c + 4 * q + i) (7 - n) =
      (32 * (q % c.px.toNat) + 8 * i + n, 16 * (q / c.px.toNat) + r) := by
  obtain ⟨hrow, hcol⟩ := row_col_of_addr (r := r) (panelByte_lt hq hi)
  have hchain : 8 * (4 * q + i) + (7 - (7 - n)) = 32 * q + 8 * i + n := by omega
  have hpanel : (32 * q + 8 * i + n) / 32 = q := by omega
  have hinner : (32 * q + 8 * i + n) % 32 = 8 * i + n := by omega
  rw [show r * rowStride c + 4 * q + i = 4 * q + i + r * rowStride c by omega]
  simp only [unmapPixel, hrow, hcol, hchain, hpanel, hinner, ← Nat.add_assoc]

theorem mapPixel_panel {c : Cfg} {q i r n : Nat} (hq : q < panelCount c) (hi : i < 4) (hr : r < 16) (hn : n < 8) :
    mapPixel c (32 * (q % c.px.toNat) + 8 * i + n : Nat) (16 * (q / c.px.toNat) + r : Nat) =
      some (r * rowStride c + 4 * q + i, bitMask (7 - n)) := by
  have ha : r * rowStride c + 4 * q + i < fbBytes c := by
    rw [Nat.add_assoc]
    exact row_addr_lt hr (panelByte_lt hq hi)
  rw [mapPixel_eq_some_iff ha (by omega), unmapPixel_panel hq hi hn]
  exact ⟨rfl, rfl⟩

/-- Settles O25: panel `q`'s byte column `i` is group `4*q + i` of the build, and `MAP` sends the eight pixels to the
bits of the FB byte it copies. -/
theorem buildPanelLayout : Obligations.BuildPanelLayout := by
  unfold Obligations.BuildPanelLayout
  intro s p q i k n hq hi hk hn
  refine ⟨_, _, buildCache_eq s p, ?_, rfl, ?_⟩
  · rw [show 16 * q + 4 * i + k = 4 * (4 * q + i) + k by omega, rowGroupBytes_group s p (panelByte_lt hq hi) hk,
      Nat.add_assoc]
  · exact pixelLit_eq (by omega) (mapPixel_panel hq hi (groupRow_lt _ _ hk) hn)

end Sys2Proof.Machine

/-! PROOFS. The row sequencer (`43_row_sequencer.md`): what a whole `SCAN` and a whole `FLUSH` answer when every request is
answered `OK` and when one fails, `PHASE` after many scans (R149), and what of the state the commands keep. -/

namespace Sys2Proof.Machine

/-! ### Whole commands -/

/-- Settles O29: the one pass of `SCAN` is a pass that is answered throughout. -/
theorem scanCompletesAPass : Obligations.ScanCompletesAPass := by
  unfold Obligations.ScanCompletesAPass
  intro s v rest hl hb ha
  rw [exec_scan_ready hl, pass_done .scan 0 hb ha, hl]
  rfl

/-- Settles O30: the one pass of `SCAN` ends at its `n`-th request, and the command with it. -/
theorem scanAbortsAtAFailure : Obligations.ScanAbortsAtAFailure := by
  unfold Obligations.ScanAbortsAtAFailure
  intro s v n r rest hl hb ha hr
  rw [exec_scan_ready hl, pass_failed .scan 0 hb ha hr, hl]
  rfl

theorem flushSteps_flatMap (f : Profile) : flushSteps f = ([0, 1, 2, 3] : List (Fin 4)).flatMap (passSteps f) := by
  simp [flushSteps]

/-- Settles O32: `FLUSH` is four passes that are answered throughout, and four advances are none modulo 4. -/
theorem flushCompletesFourPasses : Obligations.FlushCompletesFourPasses := by
  unfold Obligations.FlushCompletesFourPasses
  intro s v rest hl hb ha
  obtain ⟨l, hrun⟩ := passes_done .flush [0, 1, 2, 3] hb ha
  have hphase : s.phase + BitVec.ofNat 2 4 = s.phase := BitVec.add_zero s.phase
  rw [exec_flush_ready hl, flushSteps_flatMap, hrun, flushRequests_eq, hl]
  simp only [List.length_cons, List.length_nil, Nat.reduceAdd, hphase]
  rfl

/-- Settles O33: the `k` passes before are done, and pass `k` ends at its `n`-th request, and the command with it. -/
theorem flushAbortsAtAFailure : Obligations.FlushAbortsAtAFailure := by
  unfold Obligations.FlushAbortsAtAFailure
  intro s v k n r rest hl hb hk hn ha hr
  obtain ⟨htake, hget⟩ := flushRequests_at (s := s) (v := v) hk hn
  rw [hget] at hr
  rw [← List.replicate_append_replicate, List.append_assoc] at ha
  obtain ⟨l, ps, hrun⟩ := flushSteps_atPass ⟨k, hk⟩ hb ha
  have hfail := pass_failed (s := s.atPass v k l (List.replicate n .ok ++ .fail :: rest)) .flush ⟨k, hk⟩ hb rfl hr
  have hcfg : s.cfg.profile = (s.atPass v k l (List.replicate n .ok ++ .fail :: rest)).cfg.profile := rfl
  rw [exec_flush_ready hl, hrun, runSteps_append, hcfg, hfail, htake, answeredOk_append, ← List.append_assoc,
    ← phaseAt_pass, hl]
  rfl

/-- Settles O42: each `SCAN` completes one pass, which advances `PHASE` once and leaves the block ready for the next. -/
theorem phaseAfterManyScans : Obligations.PhaseAfterManyScans := by
  unfold Obligations.PhaseAfterManyScans
  intro n
  induction n with
  | zero =>
    intro s v rest hl _ ha
    exact ⟨s, rfl, hl, by simpa using ha, (Nat.mod_eq_of_lt s.phase.isLt).symm⟩
  | succ n ih =>
    intro s v rest hl hb ha
    have hsplit : s.answers = List.replicate 7 .ok ++ (List.replicate (7 * n) .ok ++ rest) := by
      rw [ha, ← List.append_assoc, List.replicate_append_replicate, Nat.mul_succ, Nat.add_comm]
    obtain ⟨u, hscan, hul, hub, hua, hphase⟩ : ∃ u, exec .scan s = .next u ∧ u.life = .ready ∧ BrightIs u v ∧
        u.answers = List.replicate (7 * n) .ok ++ rest ∧ u.phase = s.phase + 1 :=
      ⟨_, scanCompletesAPass s v _ hl hb hsplit, hl, hb, rfl, rfl⟩
    obtain ⟨t, hrun, htl, hta, htp⟩ := ih u v rest hul hub hua
    refine ⟨t, (runCommands_cons hscan _).trans hrun, htl, hta, ?_⟩
    have hadv : (s.phase + 1).toNat = (s.phase.toNat + 1) % 4 := BitVec.toNat_add s.phase 1
    rw [htp, hphase, hadv]
    omega

/-! ### The frame -/

/-- One more request and its answer. -/
theorem Ran.request {s u : State} (h : Ran s u) (r : Request) {a : Answer} {rest : List Answer}
    (ha : u.answers = a :: rest) : Ran s ((u.traced r a).withAnswers rest) := by
  obtain ⟨hc, hb, hf, hcap, hi, hr, n, es, hans, ht, hes⟩ := h
  rw [ha] at hans
  refine ⟨hc, hb, hf, hcap, hi, hr, n + 1, es ++ [(r, a)], ?_, ?_, ?_⟩
  · rw [State.withAnswers_answers, ← List.drop_drop, ← hans, List.drop_one, List.tail_cons]
  · rw [State.withAnswers_trace, State.traced_trace, ht, List.append_assoc]
  · rw [List.map_append, hes, List.take_add, ← hans]
    rfl

/-- A running command that answers a next state waits there, or has come to a state in which it gives its response. -/
theorem resume_ran {job : Job} {s t : State} (h : resume job s = .next t) :
    (Ran s t ∧ ∃ job', t.life = .busy job') ∨ ∃ u w, Ran s u ∧ t = respond w u := by
  have hran := runSteps_ran job.cmd (jobSteps s.cfg.profile job) s
  unfold resume at h
  generalize runSteps job.cmd (jobSteps s.cfg.profile job) s = o at h hran
  cases hran with
  | done u hu => cases h; exact .inr ⟨u, _, hu, rfl⟩
  | failed u p r rest _ hu _ _ ha => cases h; exact .inr ⟨_, _, hu.request r ha, rfl⟩
  | waits u p r _ hu hl _ _ => cases h; exact .inl ⟨hu, _, hl⟩
  | absent u _ _ _ => cases h

/-- A `SCAN` or `FLUSH` that answers a next state is a job that does. -/
theorem resume_of_exec {i : Instr} {s t : State} (hi : i = .scan ∨ i = .flush) (h : exec i s = .next t) :
    ∃ job, resume job s = .next t := by
  have hl := ready_of_exec h
  rcases hi with rfl | rfl
  · exact ⟨_, exec_scan_resume hl ▸ h⟩
  · exact ⟨_, exec_flush_resume hl ▸ h⟩

/-- Settles O38: a run writes `PHASE`, `CACHE`, `LIFE` and the ports' records alone, and the command waits or responds. -/
theorem sequencerCommandFrame : Obligations.SequencerCommandFrame := by
  unfold Obligations.SequencerCommandFrame
  intro s t i hi h
  obtain ⟨job, hrun⟩ := resume_of_exec hi h
  rcases resume_ran hrun with ⟨⟨hc, hb, hf, hcap, hin, hresp, hrec⟩, hbusy⟩ |
    ⟨u, w, ⟨hc, hb, hf, hcap, hin, hresp, hrec⟩, rfl⟩
  · exact ⟨hc, hb, hf, hcap, hin, hrec, .inl ⟨hbusy, hresp⟩⟩
  · exact ⟨hc, hb, hf, hcap, hin, hrec, .inr ⟨rfl, w, by rw [respond_responses, hresp]⟩⟩

end Sys2Proof.Machine

/-! PROOFS. The requests of `SCAN` and `FLUSH`, whatever the answers: they are those of R145's table in its order, each
after the one before was answered `OK`, and from that order the blanking invariant (R146) follows. -/

namespace Sys2Proof.Machine

/-! ### The seven requests of a pass, by their place (R145's table) -/

theorem passRequests_blank (s : State) (p : BitVec 2) (v : BitVec 16) :
    (passRequests s p v)[blankIndex s.cfg.profile]? = some (blankOf s.cfg.strategy) := by
  unfold passRequests blankIndex
  cases s.cfg.profile <;> rfl

theorem passRequests_bus (s : State) (p : BitVec 2) (v : BitVec 16) :
    (passRequests s p v)[busIndex s.cfg.profile]? = some (.bus (rowGroupBytes s p)) := by
  unfold passRequests busIndex
  cases s.cfg.profile <;> rfl

theorem passRequests_latches (s : State) (p : BitVec 2) (v : BitVec 16) :
    (passRequests s p v)[2]? = some (.line .lat (latchFirst s.cfg.profile)) ∧
    (passRequests s p v)[3]? = some (.line .lat (latchSecond s.cfg.profile)) := by
  unfold passRequests
  cases s.cfg.profile <;> exact ⟨rfl, rfl⟩

theorem passRequests_unblank (s : State) (p : BitVec 2) (v : BitVec 16) :
    (passRequests s p v)[6]? = some (unblankOf s.cfg.strategy v) := by
  unfold passRequests
  cases s.cfg.profile <;> rfl

/-- The blank and the `BUS` request are the first two, the unblank is the last, and those between need the blank. -/
theorem passRequests_place {s : State} {p : BitVec 2} {v : BitVec 16} {i : Nat} {r : Request}
    (h : (passRequests s p v)[i]? = some r) :
    r = blankOf s.cfg.strategy ∨ r = .bus (rowGroupBytes s p) ∨ (2 ≤ i ∧ i < 6 ∧ r.needsBlank = true) ∨
      (i = 6 ∧ r = unblankOf s.cfg.strategy v) := by
  have hi := passRequests_lt h
  unfold passRequests at h
  cases hf : s.cfg.profile <;> rw [hf] at h <;> interval_cases i <;> cases h <;> simp [Request.needsBlank]

theorem blankIndex_lt_two (f : Profile) : blankIndex f < 2 := by cases f <;> decide

theorem busIndex_lt_two (f : Profile) : busIndex f < 2 := by cases f <;> decide

@[simp] theorem needsBlank_blankOf (g : Strategy) : (blankOf g).needsBlank = false := by cases g <;> rfl

@[simp] theorem needsBlank_unblankOf (g : Strategy) (v : BitVec 16) : (unblankOf g v).needsBlank = false := by
  cases g <;> rfl

/-- The requests that need the blank stand between the first two and the last (R146). -/
theorem passRequests_needsBlank {s : State} {p : BitVec 2} {v : BitVec 16} {i : Nat} {r : Request}
    (h : (passRequests s p v)[i]? = some r) (hr : r.needsBlank = true) : 2 ≤ i ∧ i < 6 := by
  rcases passRequests_place h with rfl | rfl | ⟨hi2, hi6, -⟩ | ⟨-, rfl⟩
  · simp at hr
  · cases hr
  · exact ⟨hi2, hi6⟩
  · simp at hr

theorem unblankOf_ne_bus (g : Strategy) (v : BitVec 16) (d : List Byte) : unblankOf g v ≠ .bus d := by
  cases g <;> simp [unblankOf]

/-! ### What a command has issued when it ends or waits -/

/-- From `s` a command whose requests are `reqs` has come to `t`: a request was answered `FAIL`, or the next one waits, or
all were answered `OK`, and then `PHASE` is `p`. -/
inductive SequencerEnds (reqs : List Request) (p : BitVec 2) (s t : State) : Prop where
  | failed (n : Nat) (r : Request) (hr : reqs[n]? = some r)
      (ht : t.trace = s.trace ++ (answeredOk (reqs.take n) ++ [(r, .fail)]))
      (hw : t.responses = s.responses ++ [failWord r])
  | waits (n : Nat) (ht : t.trace = s.trace ++ answeredOk (reqs.take n)) (hw : t.responses = s.responses)
  | completed (ht : t.trace = s.trace ++ answeredOk reqs) (hp : t.phase = p)

theorem exists_passRequest (s : State) (p : BitVec 2) (v : BitVec 16) {n : Nat} (h : n < 7) :
    ∃ r, (passRequests s p v)[n]? = some r :=
  ⟨_, List.getElem?_eq_getElem (by rwa [passRequests_length])⟩

/-- How `SCAN` ends, whatever the answers (R136, R145). -/
theorem scan_ends {s t : State} {v : BitVec 16} (hb : BrightIs s v) (h : exec .scan s = .next t) :
    SequencerEnds (passRequests s s.phase v) (s.phase + 1) s t := by
  have hl := ready_of_exec h
  rcases answers_split 7 s.answers with ⟨n, rest, hn, ha⟩ | ⟨n, hn, ha⟩ | ⟨rest, ha⟩
  · obtain ⟨r, hr⟩ := exists_passRequest s s.phase v hn
    rw [scanAbortsAtAFailure s v n r rest hl hb ha hr] at h
    cases h
    exact .failed n r hr (List.append_assoc ..) rfl
  · obtain ⟨r, hr⟩ := exists_passRequest s s.phase v hn
    obtain ⟨u, hu, -, rfl⟩ := scanWaitsForAnAnswer s v n r hl hb ha hr
    rw [hu] at h
    cases h
    exact .waits n rfl rfl
  · rw [scanCompletesAPass s v rest hl hb ha] at h
    cases h
    exact .completed rfl rfl

@[simp] theorem flushRequests_length (s : State) (v : BitVec 16) : (flushRequests s v).length = 28 := by
  rw [flushRequests_eq, passesRequests_length]

/-- The requests of a flush by their pass and their place in it. -/
theorem exists_flushRequest (s : State) (v : BitVec 16) {m : Nat} (h : m < 28) :
    ∃ k n r, k < 4 ∧ n < 7 ∧ m = 7 * k + n ∧ (flushRequests s v)[m]? = some r :=
  ⟨m / 7, m % 7, _, by omega, by omega, by omega, List.getElem?_eq_getElem (by rwa [flushRequests_length])⟩

/-- How `FLUSH` ends, whatever the answers (R147, R148). -/
theorem flush_ends {s t : State} {v : BitVec 16} (hb : BrightIs s v) (h : exec .flush s = .next t) :
    SequencerEnds (flushRequests s v) s.phase s t := by
  have hl := ready_of_exec h
  rcases answers_split 28 s.answers with ⟨m, rest, hm, ha⟩ | ⟨m, hm, ha⟩ | ⟨rest, ha⟩
  · obtain ⟨k, n, r, hk, hn, rfl, hr⟩ := exists_flushRequest s v hm
    rw [flushAbortsAtAFailure s v k n r rest hl hb hk hn ha hr] at h
    cases h
    exact .failed _ r hr (List.append_assoc ..) rfl
  · obtain ⟨k, n, r, hk, hn, rfl, hr⟩ := exists_flushRequest s v hm
    obtain ⟨u, hu, -, rfl⟩ := flushWaitsForAnAnswer s v ⟨k, hk⟩ n r hl hb hn ha hr
    rw [hu] at h
    cases h
    exact .waits (7 * k + n) rfl rfl
  · rw [flushCompletesFourPasses s v rest hl hb ha] at h
    cases h
    exact .completed rfl rfl

/-! ### The blanking invariant -/

/-- The entries `es` are the first of the requests `reqs` in their order, and only the last may have been answered `FAIL`
(R53, R145). -/
def Issued (reqs : List Request) (es : List (Request × Answer)) : Prop :=
  ∀ i r a, es[i]? = some (r, a) → reqs[i]? = some r ∧ (i + 1 < es.length → a = .ok)

theorem getElem?_answeredOk {reqs : List Request} {i : Nat} {r : Request} {a : Answer} :
    (answeredOk reqs)[i]? = some (r, a) ↔ reqs[i]? = some r ∧ a = .ok := by
  simp [answeredOk, eq_comm]

theorem Issued.of_prefix {reqs reqs' : List Request} {es : List (Request × Answer)} (h : Issued reqs es)
    (hp : reqs <+: reqs') : Issued reqs' es := by
  intro i r a hi
  obtain ⟨hr, ha⟩ := h i r a hi
  obtain ⟨tl, rfl⟩ := hp
  obtain ⟨hlt, -⟩ := List.getElem?_eq_some_iff.1 hr
  exact ⟨(List.getElem?_append_left hlt).trans hr, ha⟩

theorem issued_answeredOk {pre reqs : List Request} (h : pre <+: reqs) : Issued reqs (answeredOk pre) := by
  refine Issued.of_prefix (fun i r a hi => ?_) h
  obtain ⟨hr, ha⟩ := getElem?_answeredOk.1 hi
  exact ⟨hr, fun _ => ha⟩

theorem issued_failed {reqs : List Request} {n : Nat} {r : Request} (h : reqs[n]? = some r) :
    Issued reqs (answeredOk (reqs.take n) ++ [(r, .fail)]) := by
  obtain ⟨hn, -⟩ := List.getElem?_eq_some_iff.1 h
  have hlen : (answeredOk (reqs.take n)).length = n := by simp [answeredOk, hn.le]
  intro i q a hi
  rcases Nat.lt_or_ge i n with hlt | hge
  · rw [List.getElem?_append_left (by omega)] at hi
    exact ⟨(issued_answeredOk (List.take_prefix n reqs) i q a hi).1, fun _ => (getElem?_answeredOk.1 hi).2⟩
  · rw [List.getElem?_append_right (by omega), hlen, List.getElem?_singleton] at hi
    split at hi
    · cases hi
      obtain rfl : i = n := by omega
      exact ⟨h, fun hlast => by simp [hlen] at hlast⟩
    · cases hi

/-- A request before an issued one was issued and answered `OK`. -/
theorem Issued.before {reqs : List Request} {es : List (Request × Answer)} {i j : Nat} {e : Request × Answer}
    {q : Request} (h : Issued reqs es) (hi : es[i]? = some e) (hj : j < i) (hq : reqs[j]? = some q) :
    es[j]? = some (q, .ok) := by
  obtain ⟨hlt, -⟩ := List.getElem?_eq_some_iff.1 hi
  obtain ⟨⟨q', a⟩, hget⟩ : ∃ e', es[j]? = some e' := ⟨_, List.getElem?_eq_getElem (hj.trans hlt)⟩
  obtain ⟨hq', ha⟩ := h j q' a hget
  rw [hget, ha (by omega), Option.some.inj (hq'.symm.trans hq)]

theorem SequencerEnds.issued {reqs : List Request} {p : BitVec 2} {s t : State} (h : SequencerEnds reqs p s t) :
    ∃ es, t.trace = s.trace ++ es ∧ Issued reqs es := by
  cases h with
  | failed n r hr ht _ => exact ⟨_, ht, issued_failed hr⟩
  | waits n ht _ => exact ⟨_, ht, issued_answeredOk (List.take_prefix n reqs)⟩
  | completed ht _ => exact ⟨_, ht, issued_answeredOk (List.prefix_refl reqs)⟩

/-- One pass keeps the blanking invariant wherever it ends (R146). -/
theorem Issued.blankingKept {s : State} {p : BitVec 2} {v : BitVec 16} {es : List (Request × Answer)}
    (h : Issued (passRequests s p v) es) :
    BlankingKept (blankIndex s.cfg.profile) (blankOf s.cfg.strategy) (unblankOf s.cfg.strategy v) es := by
  refine ⟨fun i r a hi hneeds => ?_, fun r a hi => ?_, fun i r a hi hr hne => ?_⟩
  · have hb := blankIndex_lt_two s.cfg.profile
    obtain ⟨hi2, hi6⟩ := passRequests_needsBlank (h i r a hi).1 hneeds
    exact ⟨by omega, hi6, h.before hi (by omega) (passRequests_blank s p v)⟩
  · exact (Option.some.inj ((passRequests_unblank s p v).symm.trans (h 6 r a hi).1)).symm
  · rcases passRequests_place (h i r a hi).1 with rfl | rfl | ⟨-, -, hneeds⟩ | ⟨h6, -⟩
    · exact absurd hr.symm hne
    · exact absurd hr.symm (unblankOf_ne_bus _ _ _)
    · simp [hr] at hneeds
    · exact h6

/-- The entries of pass `k` of a flush are those of a pass. -/
theorem Issued.pass {s : State} {v : BitVec 16} {es : List (Request × Answer)} (h : Issued (flushRequests s v) es)
    (k : Nat) : Issued (passRequests s (s.phase + BitVec.ofNat 2 k) v) ((es.drop (7 * k)).take 7) := by
  intro i r a hi
  obtain ⟨hlt, -⟩ := List.getElem?_eq_some_iff.1 hi
  rw [List.length_take, List.length_drop] at hlt
  have hi7 : i < 7 := by omega
  rw [List.getElem?_take_of_lt hi7, List.getElem?_drop] at hi
  obtain ⟨hr, ha⟩ := h _ r a hi
  have h28 : 7 * k + i < 28 := flushRequests_length s v ▸ (List.getElem?_eq_some_iff.1 hr).1
  obtain ⟨-, hget⟩ := flushRequests_at (s := s) (v := v) (show k < 4 by omega) hi7
  refine ⟨hget.symm.trans hr, fun hlast => ha ?_⟩
  rw [List.length_take, List.length_drop] at hlast
  omega

theorem passRequests_prefix_flushRequests (s : State) (v : BitVec 16) :
    passRequests s s.phase v <+: flushRequests s v := by
  simp only [flushRequests, List.append_assoc]
  exact List.prefix_append _ _

/-- Settles O36: `SCAN` and `FLUSH` issue the requests of whole passes in their order, and go on after an `OK` only. -/
theorem blankingInvariant : Obligations.BlankingInvariant := by
  unfold Obligations.BlankingInvariant
  intro s t i v hi hb h
  obtain ⟨es, htrace, hissued⟩ : ∃ es, t.trace = s.trace ++ es ∧ Issued (flushRequests s v) es := by
    rcases hi with rfl | rfl
    · obtain ⟨es, htrace, hissued⟩ := (scan_ends hb h).issued
      exact ⟨es, htrace, hissued.of_prefix (passRequests_prefix_flushRequests s v)⟩
    · exact (flush_ends hb h).issued
  exact ⟨es, htrace, fun k => (hissued.pass k).blankingKept⟩

end Sys2Proof.Machine

/-! PROOFS. A `FLUSH` that responds `OK` (R155) and the suspension of a pass (R152). -/

namespace Sys2Proof.Machine

/-! ### Resynchronisation -/

/-- `BRIGHT` has no value that the unblank needs (R25), and an unblank is among the positions that remain. -/
def BrightMissing (ps : List Pos) (s : State) : Prop :=
  s.cfg.strategy = .duty ∧ s.bright = none ∧ ∃ p ∈ ps, p.j = .s6

/-- Without that value the unblank has no request. -/
theorem BrightMissing.not_unblank {ps : List Pos} {s : State} {j : Label} {r : Request} (h : BrightMissing ps s)
    (hr : stepRequest s j = some r) : j ≠ .s6 := by
  rintro rfl
  obtain ⟨hd, hn, -⟩ := h
  simp [stepRequest, unblankRequest, hd, hn] at hr

theorem BrightMissing.tail {p : Pos} {ps : List Pos} {s t : State} (h : BrightMissing (p :: ps) s) (hp : p.j ≠ .s6)
    (hc : t.cfg = s.cfg) (hb : t.bright = s.bright) : BrightMissing ps t := by
  obtain ⟨hd, hn, q, hq, hj⟩ := h
  rcases List.mem_cons.1 hq with rfl | hq
  · exact absurd hj hp
  · exact ⟨hc ▸ hd, hb ▸ hn, q, hq, hj⟩

/-- A run that passes an unblank has a brightness for it. -/
theorem bright_of_runSteps {cmd : SeqCmd} {ps : List Pos} {s u : State} (h : runSteps cmd ps s = .done u)
    (hps : ∃ p ∈ ps, p.j = .s6) : ∃ v, BrightIs s v := by
  by_contra hno
  have hmissing : BrightMissing ps s := by
    rcases hb : s.bright with _ | v
    · exact ⟨by_contra fun hd => hno ⟨0, fun hd' => absurd hd' hd⟩, hb, hps⟩
    · exact absurd ⟨v, fun _ => hb⟩ hno
  have hend : RunEnd BrightMissing cmd (runSteps cmd ps s) :=
    runSteps_ends (hat := fun _ _ _ hm => hm)
      (hbuild := fun _ _ _ hj hm => hm.tail (by simp [hj]) rfl rfl)
      (hadv := fun _ _ _ hj hm => hm.tail (by simp [hj]) rfl rfl)
      (hans := fun _ _ _ _ _ hr hm => hm.tail (hm.not_unblank hr) rfl rfl) ps s hmissing
  rw [h] at hend
  cases hend with
  | done _ hm =>
    obtain ⟨-, -, p, hp, -⟩ := hm
    cases hp

theorem flushSteps_unblanks (f : Profile) : ∃ p ∈ flushSteps f, p.j = .s6 :=
  ⟨{ k := 0, j := .s6 }, by cases f <;> decide, rfl⟩

/-- A `FLUSH` that responds `OK` has run every step. -/
theorem flush_done_of_ok {s t : State} (h : exec .flush s = .next t)
    (hw : t.responses = s.responses ++ [0x0000000000000000#64]) :
    ∃ u, runSteps .flush (flushSteps s.cfg.profile) s = .done u := by
  rw [exec_flush_ready (ready_of_exec h)] at h
  have hran := runSteps_ran .flush (flushSteps s.cfg.profile) s
  generalize runSteps .flush (flushSteps s.cfg.profile) s = o at h hran
  cases hran with
  | done u _ => exact ⟨u, rfl⟩
  | failed u p r rest _ hu _ _ _ =>
    cases h
    simp [raiseError, hu.responses, statusWord_errorOf, failWord_ne_ok] at hw
  | waits u p r _ hu _ _ _ =>
    cases h
    simp [hu.responses] at hw
  | absent u _ _ _ => cases h

/-- Every phase is the one of some pass of a flush (R147). -/
theorem exists_pass_of_phase (p q : BitVec 2) : ∃ k < 4, q = p + BitVec.ofNat 2 k :=
  ⟨(q - p).toNat, (q - p).isLt, by
    rw [BitVec.ofNat_toNat, BitVec.setWidth_eq, BitVec.add_comm, BitVec.sub_add_cancel]⟩

/-- Settles O43: a `FLUSH` that responds `OK` was answered throughout, and its four passes are those of the four phases. -/
theorem flushResynchronises : Obligations.FlushResynchronises := by
  unfold Obligations.FlushResynchronises
  intro s t h hw
  obtain ⟨u, hdone⟩ := flush_done_of_ok h hw
  obtain ⟨v, hb⟩ := bright_of_runSteps hdone (flushSteps_unblanks _)
  cases flush_ends hb h with
  | failed n r _ _ hfail =>
    rw [hw] at hfail
    simp [(failWord_ne_ok r).symm] at hfail
  | waits n _ hwait =>
    rw [hw] at hwait
    simp at hwait
  | completed ht hp =>
    refine ⟨hp, _, ht, fun p => ?_⟩
    obtain ⟨k, hk, rfl⟩ := exists_pass_of_phase s.phase p
    have hget : ∀ {n r}, n < 7 → (passRequests s (s.phase + BitVec.ofNat 2 k) v)[n]? = some r →
        (answeredOk (flushRequests s v))[7 * k + n]? = some (r, .ok) := fun hn hr =>
      getElem?_answeredOk.2 ⟨(flushRequests_at hk hn).2.trans hr, rfl⟩
    have hbus := busIndex_lt_two s.cfg.profile
    obtain ⟨hfirst, hsecond⟩ := passRequests_latches s (s.phase + BitVec.ofNat 2 k) v
    exact ⟨7 * k + busIndex s.cfg.profile, 7 * k + 2, 7 * k + 3, hget (by omega) (passRequests_bus s _ v), by omega,
      by omega, by omega, hget (by omega) hfirst, hget (by omega) hsecond⟩

/-! ### Suspension -/

/-- The step whose request is a `BUS` request is 2b (R137, R144). -/
theorem stepRequest_bus_iff (s : State) (j : Label) : (∃ d, stepRequest s j = some (.bus d)) ↔ j = .s2b := by
  constructor
  · rintro ⟨d, h⟩
    cases j with
    | s2b => rfl
    | s1 => simp only [stepRequest, blankRequest] at h; split at h <;> cases h
    | s6 =>
      simp only [stepRequest, unblankRequest] at h
      split at h
      · simp at h
      · cases h
    | _ => cases h
  · rintro rfl
    exact ⟨s.cache, rfl⟩

/-- Settles O44: the block may yield at step 2b alone, and there alone a `BUS` request is in flight. -/
theorem suspensionOnlyAtTransmit : Obligations.SuspensionOnlyAtTransmit := by
  unfold Obligations.SuspensionOnlyAtTransmit
  intro s _
  cases hl : s.life with
  | busy job =>
    have hyield : s.mayYield = true ↔ s.cfg.mode = .suspendable ∧ job.pos.j = .s2b := by simp [State.mayYield, hl]
    rw [hyield, ← stepRequest_bus_iff s, ← inFlight_busy hl]
    simp
  | ready => simp [State.mayYield, hl]
  | dead => simp [State.mayYield, hl]
  | resetting => simp [State.mayYield, hl]

end Sys2Proof.Machine

/-! PROOFS. The brightness controller (`44_brightness.md`): what each `DUTY` request carries (R167, R171), and what a change
of the strategy leaves as it is (R169). -/

namespace Sys2Proof.Machine

/-! ### The value of a `DUTY` request -/

/-- The `DUTY` requests of a pass are its blank and its unblank (R167). -/
theorem duty_of_mem_passRequests {s : State} {p : BitVec 2} {v w : BitVec 16} (h : .duty w ∈ passRequests s p v) :
    w = 0 ∨ w = v := by
  obtain ⟨i, hi⟩ := List.mem_iff_getElem?.1 h
  rcases passRequests_place hi with hblank | hbus | ⟨-, -, hneeds⟩ | ⟨-, hunblank⟩
  · unfold blankOf at hblank
    split at hblank <;> cases hblank
    exact .inl rfl
  · cases hbus
  · cases hneeds
  · unfold unblankOf at hunblank
    split at hunblank <;> cases hunblank
    exact .inr rfl

theorem duty_of_mem_flushRequests {s : State} {v w : BitVec 16} (h : .duty w ∈ flushRequests s v) : w = 0 ∨ w = v := by
  rw [flushRequests_eq, passesRequests] at h
  obtain ⟨k, -, hpass⟩ := List.mem_flatMap.1 h
  exact duty_of_mem_passRequests hpass

theorem Issued.mem {reqs : List Request} {es : List (Request × Answer)} (h : Issued reqs es) {r : Request} {a : Answer}
    (he : (r, a) ∈ es) : r ∈ reqs := by
  obtain ⟨i, hi⟩ := List.mem_iff_getElem?.1 he
  exact List.mem_of_getElem? (h i r a hi).1

theorem Inv.brightIs_b0 {s : State} (h : Inv s) : BrightIs s s.cfg.b0 := fun hd => by rw [h.brightIsB0, if_pos hd]

/-- Settles O48: `SCAN` and `FLUSH` issue requests of whole passes with brightness `B0`, the other commands none. -/
theorem dutyIsZeroOrB0 : Obligations.DutyIsZeroOrB0 := by
  unfold Obligations.DutyIsZeroOrB0
  intro s t i hinv h
  obtain ⟨-, hshape⟩ := exec_shape h
  cases i with
  | setpx x y on => cases hshape; exact ⟨[], (List.append_nil _).symm, by simp⟩
  | scan =>
    obtain ⟨es, htrace, hissued⟩ := (scan_ends hinv.brightIs_b0 h).issued
    exact ⟨es, htrace, fun v a he => duty_of_mem_passRequests (hissued.mem he)⟩
  | flush =>
    obtain ⟨es, htrace, hissued⟩ := (flush_ends hinv.brightIs_b0 h).issued
    exact ⟨es, htrace, fun v a he => duty_of_mem_flushRequests (hissued.mem he)⟩
  | qdim => cases hshape; exact ⟨[], (List.append_nil _).symm, by simp⟩

/-! ### A block with `DUTY` beside one with `ENABLE` -/

/-- The state with the strategy `ENABLE`, which has no `BRIGHT` (R25). -/
def State.enabled (s : State) : State := { s with cfg := { s.cfg with strategy := .enable }, bright := none }

@[simp] theorem neutralTrace_concat (es : List (Request × Answer)) (r : Request) (a : Answer) :
    neutralTrace (es ++ [(r, a)]) = neutralTrace es ++ [(r.neutral, a)] := by simp [neutralTrace]

/-- The two blocks agree in all that R169 says a change of the strategy keeps. -/
structure AgreeButBrightness (s u : State) : Prop where
  phase : u.phase = s.phase
  cache : u.cache = s.cache
  fb : u.fb = s.fb
  life : u.life = s.life
  answers : u.answers = s.answers
  trace : neutralTrace u.trace = neutralTrace s.trace

/-- A `DUTY` block `s` and an `ENABLE` block `u` while their runs go on: no request has failed yet. -/
structure RunAlike (s u : State) : Prop extends AgreeButBrightness s u where
  duty : s.cfg.strategy = .duty
  bright : s.bright ≠ none
  cfg : u.cfg = s.enabled.cfg
  responses : u.responses = s.responses

/-- The two blocks when their commands are over or wait: the responses may differ after a failed brightness request. -/
structure EndAlike (s u : State) : Prop extends AgreeButBrightness s u where
  length : u.responses.length = s.responses.length
  error : u.responses ≠ s.responses → ∃ w, s.trace.getLast? = some (.duty w, .fail)

theorem runAlike_enabled {s : State} (hd : s.cfg.strategy = .duty) (hb : s.bright ≠ none) : RunAlike s s.enabled :=
  ⟨⟨rfl, rfl, rfl, rfl, rfl, rfl⟩, hd, hb, rfl, rfl⟩

theorem RunAlike.endAlike {s u : State} (h : RunAlike s u) : EndAlike s u :=
  ⟨h.toAgreeButBrightness, by rw [h.responses], fun hne => absurd h.responses hne⟩

/-- Responses, alike or not, leave the two blocks in agreement. -/
theorem AgreeButBrightness.respond {s u : State} (h : AgreeButBrightness s u) (w w' : Word64) :
    AgreeButBrightness (respond w s) (respond w' u) :=
  ⟨h.phase, h.cache, h.fb, rfl, h.answers, h.trace⟩

theorem RunAlike.respond {s u : State} (h : RunAlike s u) (w : Word64) : EndAlike (respond w s) (respond w u) :=
  ⟨h.toAgreeButBrightness.respond w w, by simp [h.responses], fun hne => absurd (by simp [h.responses]) hne⟩

/-! ### One step of both blocks -/

/-- A request of the `DUTY` block and that of the `ENABLE` block at the same step: the same one, or the two are brightness
requests (R166). -/
def CorrespondingRequests (r q : Request) : Prop := q = r ∨ (∃ w, r = .duty w) ∧ ∃ l, q = .line .en l

theorem CorrespondingRequests.neutral {r q : Request} (h : CorrespondingRequests r q) : q.neutral = r.neutral := by
  rcases h with rfl | ⟨⟨w, rfl⟩, l, rfl⟩ <;> rfl

/-- A build does not look at the strategy (R121). -/
theorem RunAlike.rowGroupBytes_eq {s u : State} (h : RunAlike s u) (p : BitVec 2) :
    rowGroupBytes u p = rowGroupBytes s p :=
  rowGroupBytes_congr (t := s.enabled) p h.cfg h.fb

/-- Where the `DUTY` block issues a request, the `ENABLE` block issues the corresponding one (R169). -/
theorem RunAlike.corresponding_request {s u : State} (h : RunAlike s u) {j : Label} {r : Request}
    (hr : stepRequest s j = some r) : ∃ q, stepRequest u j = some q ∧ CorrespondingRequests r q := by
  obtain ⟨⟨hphase, hcache, -⟩, hd, -, hcfg, -⟩ := h
  cases j with
  | s1 =>
    simp only [stepRequest, blankRequest, hd, hcfg] at hr ⊢
    cases hr
    exact ⟨_, rfl, .inr ⟨⟨_, rfl⟩, _, rfl⟩⟩
  | s6 =>
    simp only [stepRequest, unblankRequest, hd, hcfg] at hr ⊢
    obtain ⟨v, -, rfl⟩ := Option.map_eq_some_iff.1 hr
    exact ⟨_, rfl, .inr ⟨⟨_, rfl⟩, _, rfl⟩⟩
  | _ =>
    refine ⟨r, ?_, .inl rfl⟩
    rw [← hr]
    simp [stepRequest, hcfg, hphase, hcache, State.enabled]

/-- Both blocks take the same answer to corresponding requests. -/
theorem RunAlike.agree_traced {s u : State} (h : RunAlike s u) {r q : Request} (hrq : CorrespondingRequests r q)
    (a : Answer) (rest : List Answer) :
    AgreeButBrightness ((s.traced r a).withAnswers rest) ((u.traced q a).withAnswers rest) where
  phase := h.phase
  cache := h.cache
  fb := h.fb
  life := h.life
  answers := rfl
  trace := by simp [h.trace, hrq.neutral]

/-- After `OK` both runs go on. -/
theorem RunAlike.answered {s u : State} (h : RunAlike s u) {r q : Request} (hrq : CorrespondingRequests r q)
    (rest : List Answer) : RunAlike ((s.traced r .ok).withAnswers rest) ((u.traced q .ok).withAnswers rest) :=
  ⟨h.agree_traced hrq .ok rest, h.duty, h.bright, h.cfg, h.responses⟩

/-- After `FAIL` both commands end, with different error words only if the request was a brightness request (R176). -/
theorem RunAlike.failed {s u : State} (h : RunAlike s u) {r q : Request} (hrq : CorrespondingRequests r q)
    (rest : List Answer) : EndAlike (raiseError r ((s.traced r .fail).withAnswers rest))
      (raiseError q ((u.traced q .fail).withAnswers rest)) := by
  refine ⟨(h.agree_traced hrq .fail rest).respond _ _, by simp [raiseError, h.responses], ?_⟩
  rcases hrq with rfl | ⟨⟨w, rfl⟩, -⟩
  · simp [raiseError, h.responses]
  · exact fun _ => ⟨w, by simp [raiseError]⟩

/-- A step that issues a request asks it of the collaborators (R53). -/
theorem runLabel_of_request {s : State} {j : Label} {r : Request} (h : stepRequest s j = some r) :
    runLabel j s = issue r s := by
  obtain ⟨ha, h5⟩ := label_of_request h
  have hreq : requestStep j s = issue r s := by simp only [requestStep, h]
  cases j with
  | s2a => exact absurd rfl ha
  | s5 => exact absurd rfl h5
  | _ => exact hreq

/-- Both runs have gone on, or both have ended. -/
inductive ProgressAlike : Progress → Progress → Prop where
  | done {s u : State} (h : RunAlike s u) : ProgressAlike (.done s) (.done u)
  | ended {s u : State} (h : EndAlike s u) : ProgressAlike (.ended s) (.ended u)

/-- Both blocks pass a step, or both end at it. -/
theorem RunAlike.runLabel_alike {s u : State} (h : RunAlike s u) (j : Label) :
    ProgressAlike (runLabel j s) (runLabel j u) := by
  have hc := runLabel_cases j s
  generalize runLabel j s = o at hc
  cases hc with
  | build hj =>
    subst hj
    simp only [runLabel, buildStep, buildCache_eq, h.rowGroupBytes_eq, h.phase]
    exact .done ⟨⟨h.phase, rfl, h.fb, h.life, h.answers, h.trace⟩, h.duty, h.bright, h.cfg, h.responses⟩
  | advance hj =>
    subst hj
    exact .done ⟨⟨congrArg (· + 1) h.phase, h.cache, h.fb, h.life, h.answers, h.trace⟩, h.duty, h.bright, h.cfg,
      h.responses⟩
  | answered r rest hr ha =>
    obtain ⟨q, hq, hrq⟩ := h.corresponding_request hr
    rw [runLabel_of_request hq, issue, emit_ok (h.answers.trans ha)]
    exact .done (h.answered hrq rest)
  | failed r rest hr ha =>
    obtain ⟨q, hq, hrq⟩ := h.corresponding_request hr
    rw [runLabel_of_request hq, issue, emit_fail (h.answers.trans ha)]
    exact .ended (h.failed hrq rest)
  | waits r hr ha =>
    obtain ⟨q, hq, -⟩ := h.corresponding_request hr
    rw [runLabel_of_request hq, issue, emit_waiting (h.answers.trans ha)]
    exact .ended h.endAlike
  | absent _ _ hb => exact absurd hb h.bright

/-! ### Whole commands of both blocks -/

theorem RunAlike.at {s u : State} (h : RunAlike s u) (cmd : SeqCmd) (p : Pos) : RunAlike (s.at cmd p) (u.at cmd p) :=
  ⟨⟨h.phase, h.cache, h.fb, rfl, h.answers, h.trace⟩, h.duty, h.bright, h.cfg, h.responses⟩

theorem runSteps_alike (cmd : SeqCmd) : ∀ (ps : List Pos) {s u : State}, RunAlike s u →
    ProgressAlike (runSteps cmd ps s) (runSteps cmd ps u)
  | [], _, _, h => .done h
  | p :: ps, s, u, h => by
    have hstep := (h.at cmd p).runLabel_alike p.j
    rw [runSteps_cons, runSteps_cons]
    generalize runLabel p.j (s.at cmd p) = o at hstep ⊢
    generalize runLabel p.j (u.at cmd p) = o' at hstep ⊢
    cases hstep with
    | done h' => exact runSteps_alike cmd ps h'
    | ended h' => exact .ended h'

theorem ProgressAlike.finish {o o' : Progress} (h : ProgressAlike o o') {t : State} (ht : finish o = .next t) :
    ∃ u, finish o' = .next u ∧ EndAlike t u := by
  cases h with
  | done h => cases ht; exact ⟨_, rfl, h.respond _⟩
  | ended h => cases ht; exact ⟨_, rfl, h⟩

/-- A `DUTY` block's command, run with `ENABLE` (R169). -/
theorem exec_enabled {s t : State} {i : Instr} (hd : s.cfg.strategy = .duty) (hb : s.bright ≠ none)
    (h : exec i s = .next t) : ∃ u, exec i s.enabled = .next u ∧ EndAlike t u := by
  obtain ⟨hl, hshape⟩ := exec_shape h
  have hl' : s.enabled.life = .ready := hl
  have hrun : RunAlike s s.enabled := runAlike_enabled hd hb
  cases i with
  | setpx x y on =>
    cases hshape
    exact ⟨_, exec_drawCommand hl' (x, y, on), ⟨rfl, rfl, rfl, rfl, rfl, rfl⟩, rfl, fun hne => absurd rfl hne⟩
  | scan => exact exec_scan_ready hl' ▸ (runSteps_alike .scan _ hrun).finish hshape
  | flush => exact exec_flush_ready hl' ▸ (runSteps_alike .flush _ hrun).finish hshape
  | qdim =>
    cases hshape
    exact ⟨_, exec_qdim hl', ⟨rfl, rfl, rfl, rfl, rfl, rfl⟩, rfl, fun hne => absurd rfl hne⟩

/-- Settles O47: the two blocks issue corresponding requests step by step, and only a failed brightness request is answered
with another error word. -/
theorem strategyChangesOnlyBrightness : Obligations.StrategyChangesOnlyBrightness := by
  unfold Obligations.StrategyChangesOnlyBrightness
  intro s t i v _ hd hb h
  obtain ⟨u, hu, hend⟩ := exec_enabled hd (by simp [hb]) h
  exact ⟨u, hu, hend.phase, hend.cache, hend.fb, hend.life, hend.answers, hend.trace, hend.length, hend.error⟩

end Sys2Proof.Machine

/-! PROOFS. The exceptions (`60_exceptions.md`): the commands that have none (R182), the block between commands with nothing
to do (R186, R193), and the `DEAD` block (R185). -/

namespace Sys2Proof.Machine

/-! ### The status of a response to `SETPX` and `QDIM` -/

/-- A number that leaves the top four bits free reports `OK` (R80). -/
theorem status_ofNat_of_lt {n : Nat} (h : n < 2 ^ 60) : (BitVec.ofNat 64 n).extractLsb' 60 4 = 0#4 := by
  apply BitVec.eq_of_toNat_eq
  rw [BitVec.extractLsb'_toNat, BitVec.toNat_ofNat, Nat.shiftRight_eq_div_pow, BitVec.toNat_ofNat]
  omega

/-- The dimensions of every geometry fit below the `STATUS` field (R81). -/
theorem dimensionPayload_lt (c : Cfg) : displayHeight c * 2 ^ 16 + displayWidth c < 2 ^ 60 := by
  have hheight := displayHeight_lt c
  have hwidth := displayWidth_lt c
  omega

/-- Settles O13: a `SETPX` answers the `OK` word, clipped or not, and a `QDIM` the dimensions, which leave `STATUS` zero. -/
theorem setpxAndQdimNeverFail : Obligations.SetpxAndQdimNeverFail := by
  unfold Obligations.SetpxAndQdimNeverFail
  rintro s i hl (⟨x, y, on, rfl⟩ | rfl)
  · exact ⟨_, _, exec_drawCommand hl (x, y, on), hl, rfl, status_ofNat_of_lt (n := 0) (by decide)⟩
  · exact ⟨_, _, exec_qdim hl, hl, rfl, status_ofNat_of_lt (dimensionPayload_lt s.cfg)⟩

/-! ### A block between commands -/

/-- Settles O8: a block between commands looks at the host's inputs, and there are none. -/
theorem idleBlockStays : Obligations.IdleBlockStays := by
  unfold Obligations.IdleBlockStays
  intro s hl hi
  rcases hl with hl | hl <;> simp only [step, hl, takeInput, hi]

theorem exec_dead (i : Instr) {s : State} (h : s.life = .dead) : exec i s = .refused .commandToDead := by
  obtain ⟨-, hdead, -⟩ := exec_refused i (s := s)
  exact hdead h

/-- The port of a `DEAD` block refuses an `ILLEGAL` word as it refuses a command (R185). -/
theorem execIllegal_dead {s : State} (h : s.life = .dead) : execIllegal s = .refused .commandToDead := by
  simp only [execIllegal, whenReady, h]

/-- Settles O9: a command word comes to the command port, by way of a command or of an `ILLEGAL` word, and the port is that
of a `DEAD` block. -/
theorem deadBlockRefusesCommands : Obligations.DeadBlockRefusesCommands := by
  unfold Obligations.DeadBlockRefusesCommands
  refine fun s hl => ⟨fun i => exec_dead i hl, fun w rest hi => ?_⟩
  have hl' : (s.withInputs rest).life = .dead := hl
  cases hd : decode w with
  | command i => exact (step_command (.inr hl) hi hd).trans (exec_dead i hl')
  | illegal why => exact (step_illegal (.inr hl) hi hd).trans (execIllegal_dead hl')

end Sys2Proof.Machine

/-! PROOFS. Reset: the rejected word (`70_reset_and_hazards.md` R202), the construction request and its answer (R204, R206),
a reset that waits for that answer, and the state after reset. -/

namespace Sys2Proof.Machine

/-! ### The configuration check (R202) -/

/-- `FB_BYTES` from the two grid dimensions (R13). -/
theorem fbBytes_grid (c : Cfg) : fbBytes c = 64 * c.px.toNat * c.py.toNat := by
  rw [fbBytes, rowStride_eq]
  ring

/-- The reserved bits of a configuration word as numbers (R82). -/
theorem reservedClear_iff (w : Word64) :
    reservedClear w = true ↔ w.toNat / 2 ^ 25 % 2 ^ 7 = 0 ∧ w.toNat / 2 ^ 48 = 0 := by
  have hw := w.isLt
  have hhigh : w.toNat / 2 ^ 48 % 2 ^ 16 = w.toNat / 2 ^ 48 := by omega
  rw [reservedClear, Bool.and_eq_true, beq_iff_eq, beq_iff_eq, ← BitVec.toNat_inj, ← BitVec.toNat_inj,
    BitVec.extractLsb'_toNat, BitVec.extractLsb'_toNat, Nat.shiftRight_eq_div_pow, Nat.shiftRight_eq_div_pow, hhigh]
  rfl

/-- The fields of a word are legal exactly when they break none of the conditions that R202 puts on them. -/
theorem legalCfg_sampleCfg_iff (cap : Nat) (w : Word64) : LegalCfg cap (sampleCfg w) ↔
    w.toNat % 2 ^ 10 ≠ 0 ∧ w.toNat / 2 ^ 10 % 2 ^ 11 ≠ 0 ∧
      (w.toNat / 2 ^ 23 % 2 = 1 → w.toNat / 2 ^ 22 % 2 = 1) ∧
      64 * (w.toNat % 2 ^ 10) * (w.toNat / 2 ^ 10 % 2 ^ 11) ≤ cap := by
  rw [LegalCfg, ← BitVec.toNat_ne_iff_ne, ← BitVec.toNat_ne_iff_ne, sampleCfg_profile, sampleCfg_strategy, fbBytes_grid,
    sampleCfg_px, sampleCfg_py]
  rfl

/-- A rejected word is answered at once (R202). -/
theorem applyReset_rejected {w : Word64} {s : State} (h : ¬ CfgAccepted s.fbCapBytes w) :
    applyReset w s = respondDead .configError (resetState w s) := if_neg h

/-- Settles O51: a word that breaks a condition is not accepted, and a rejected word only gives its response. -/
theorem resetRejectsBadConfiguration : Obligations.ResetRejectsBadConfiguration := by
  unfold Obligations.ResetRejectsBadConfiguration
  intro s w rest hl hi hbad
  have hrej : ¬ CfgAccepted s.fbCapBytes w := by
    rw [CfgAccepted, reservedClear_iff, legalCfg_sampleCfg_iff]
    rintro ⟨⟨hres, hhigh⟩, hpx, hpy, hprofile, hcap⟩
    rcases hbad with h | h | h | h | ⟨h, h'⟩ | h
    · exact hpx h
    · exact hpy h
    · exact h hres
    · exact h hhigh
    · exact absurd (h'.symm.trans (hprofile h)) (by decide)
    · exact h.not_ge hcap
  refine ⟨_, (step_reset hl hi).trans (congrArg _ (applyReset_rejected hrej)), rfl, ?_, rfl, rfl, rfl⟩
  rw [← statusWord_configError]
  rfl

/-! ### The construction request (R204) -/

theorem strategy_duty_of_bit {w : Word64} (h : w.toNat / 2 ^ 22 % 2 = 0) : (sampleCfg w).strategy = .duty := by
  cases hs : (sampleCfg w).strategy with
  | duty => rfl
  | enable => rw [sampleCfg_strategy, h] at hs; cases hs

/-- Settles O53: with `DUTY` the reset ends as the oldest answer has it, or waits if there is none. -/
theorem resetWithDutyConstructs : Obligations.ResetWithDutyConstructs := by
  unfold Obligations.ResetWithDutyConstructs
  intro s w rest hl hi hacc hbit
  refine ⟨_, (step_reset hl hi).trans (congrArg _ (applyReset_accepted hacc)), ?_⟩
  have hcase := finishReset_cases (resetState w (s.withInputs rest))
  generalize finishReset (resetState w (s.withInputs rest)) = t at hcase ⊢
  cases hcase with
  | enable h => cases (strategy_duty_of_bit hbit).symm.trans h
  | waits _ ha =>
    change s.answers = _ at ha
    simp [ha, State.inFlight]
  | ok _ as ha =>
    change s.answers = _ at ha
    simp [ha, respondOk, statusWord_ok]
  | failed _ as ha =>
    change s.answers = _ at ha
    simp [ha, respondDead, statusWord_brightnessError]

/-- With `ENABLE` the end of a reset is its response alone (R204). -/
theorem finishReset_enable {s : State} (h : s.cfg.strategy = .enable) : finishReset s = respondOk s := by
  simp only [finishReset, h]

/-- Settles O54: with `ENABLE` there is no construction request to answer. -/
theorem resetWithEnableIssuesNothing : Obligations.ResetWithEnableIssuesNothing := by
  unfold Obligations.ResetWithEnableIssuesNothing
  intro s w rest hl hi hacc hbit
  have hend : applyReset w (s.withInputs rest) = respondOk (resetState w (s.withInputs rest)) :=
    (applyReset_accepted (s := s.withInputs rest) hacc).trans (finishReset_enable ((sampleCfg_strategy w).2 hbit))
  refine ⟨_, (step_reset hl hi).trans (congrArg _ hend), rfl, ?_, rfl, rfl⟩
  rw [← statusWord_ok]
  rfl

/-! ### A reset that waits -/

theorem step_resetting {s : State} (h : s.life = .resetting) : step s = .next (finishReset s) := by
  simp only [step, h]

/-- A reset that still waits after it went on has done nothing (R204). -/
theorem finishReset_waits {s : State} (h : (finishReset s).life = .resetting) : finishReset s = s := by
  have hcase := finishReset_cases s
  generalize finishReset s = t at hcase h
  cases hcase with
  | waits _ _ => rfl
  | enable _ => cases h
  | ok _ rest _ => cases h
  | failed _ rest _ => cases h

/-- A reset that waits was taken with an accepted word, and has come as far as R203's values. -/
theorem applyReset_waits {w : Word64} {s : State} (h : (applyReset w s).life = .resetting) :
    CfgAccepted s.fbCapBytes w ∧ applyReset w s = resetState w s := by
  by_cases hacc : CfgAccepted s.fbCapBytes w
  · rw [applyReset_accepted hacc] at h ⊢
    exact ⟨hacc, finishReset_waits h⟩
  · rw [applyReset_rejected hacc] at h
    cases h

/-- Settles O55: only a reset, taken or going on, leaves the block waiting, and then the values of R203 are all it has set,
which more answers do not touch. -/
theorem resumedResetEqualsOneReset : Obligations.ResumedResetEqualsOneReset := by
  unfold Obligations.ResumedResetEqualsOneReset
  intro s t more hs hl
  change step (t.offer more) = step (s.offer more)
  cases step_next hs with
  | idle => rfl
  | drew w rest x y on hready _ _ => cases hready.symm.trans hl
  | answered rest w hready => cases hready.symm.trans hl
  | ran job is _ _ hrun =>
    rcases resume_ran hrun with ⟨-, job', hbusy⟩ | ⟨u, w, -, rfl⟩
    · cases hbusy.symm.trans hl
    · cases hl
  | reset w rest hl' hi =>
    obtain ⟨hacc, hend⟩ := applyReset_waits hl
    rw [hend, step_resetting rfl, step_reset (s := s.offer more) hl' hi,
      applyReset_accepted (s := (s.offer more).withInputs rest) hacc]
    rfl
  | finishing hl' => rw [finishReset_waits hl]

/-! ### The state after reset -/

/-- Settles O57: `State.reset` is what a reset leaves (O56), and every reset ends in the invariant. -/
theorem resetStateSatisfiesInv : Obligations.ResetStateSatisfiesInv := by
  unfold Obligations.ResetStateSatisfiesInv
  have hreset := (step_reset (.inl rfl) rfl).symm.trans resetStateIsTheExampleConfiguration
  exact Host.Outcome.next.inj hreset ▸ inv_applyReset _ _

end Sys2Proof.Machine

/-! PROOFS. Commands end when the collaborators respond (`70_reset_and_hazards.md` R216, `20_memory.md` R60). -/

namespace Sys2Proof.Machine

/-- When as many answers are there as are asked for, the answers end the requests with a `FAIL` or are all `OK`. -/
theorem answers_split_of_le {n : Nat} {as : List Answer} (h : n ≤ as.length) :
    (∃ m rest, m < n ∧ as = List.replicate m .ok ++ .fail :: rest) ∨ ∃ rest, as = List.replicate n .ok ++ rest := by
  rcases answers_split n as with hfail | ⟨m, hm, rfl⟩ | hok
  · exact .inl hfail
  · rw [List.length_replicate] at h
    omega
  · exact .inr hok

/-- `SCAN` ends when the answers to its seven requests are there (R136, R145). -/
theorem scan_responds {s : State} (hl : s.life = .ready) {v : BitVec 16} (hb : BrightIs s v) (ha : CollabResponds 7 s) :
    ∃ t w, exec .scan s = .next t ∧ t.life = .ready ∧ t.responses = s.responses ++ [w] := by
  rcases answers_split_of_le ha with ⟨n, rest, hn, ha⟩ | ⟨rest, ha⟩
  · obtain ⟨r, hr⟩ := exists_passRequest s s.phase v hn
    exact ⟨_, _, scanAbortsAtAFailure s v n r rest hl hb ha hr, hl, rfl⟩
  · exact ⟨_, _, scanCompletesAPass s v rest hl hb ha, hl, rfl⟩

/-- `FLUSH` ends when the answers to its 28 requests are there (R147, R148). -/
theorem flush_responds {s : State} (hl : s.life = .ready) {v : BitVec 16} (hb : BrightIs s v) (ha : CollabResponds 28 s) :
    ∃ t w, exec .flush s = .next t ∧ t.life = .ready ∧ t.responses = s.responses ++ [w] := by
  rcases answers_split_of_le ha with ⟨m, rest, hm, ha⟩ | ⟨rest, ha⟩
  · obtain ⟨k, n, r, hk, hn, rfl, hr⟩ := exists_flushRequest s v hm
    exact ⟨_, _, flushAbortsAtAFailure s v k n r rest hl hb hk hn ha hr, hl, rfl⟩
  · exact ⟨_, _, flushCompletesFourPasses s v rest hl hb ha, hl, rfl⟩

/-- Settles O50: the framebuffer commands need no answer, `SCAN` at most seven and `FLUSH` at most 28. -/
theorem answeredCommandsEnd : Obligations.AnsweredCommandsEnd := by
  unfold Obligations.AnsweredCommandsEnd
  intro s i hinv hl ha
  cases i with
  | setpx x y on => exact ⟨_, _, exec_drawCommand hl (x, y, on), hl, rfl⟩
  | scan => exact scan_responds hl hinv.brightIs_b0 ((by decide : 7 ≤ 28).trans ha)
  | flush => exact flush_responds hl hinv.brightIs_b0 ha
  | qdim => exact ⟨_, _, exec_qdim hl, hl, rfl⟩

end Sys2Proof.Machine
